-- ==== Sys2Proof/Word.lean ====
section
/-! DEFINITION. The word types of the BRBFI execution engine, with the widths of the spec's parameter table
(00_scope.md, the table after R7): CELL_W = INSN_W = 8, PTR_W = 15, IP_W = 17. All values are unsigned (R8). -/

namespace Sys2Proof

/-- A tape cell, an instruction word, an input or output element: 8 bits (R7, R70, D14). -/
abbrev Byte := BitVec 8

/-- A value of the pointer register `p`: `PTR_W` = 15 bits (R21, D4). -/
abbrev Ptr := BitVec 15

/-- An instruction address: `ip`, `prog_len`, `fpos`, a loop-stack entry: `IP_W` = 17 bits (R22, D3). -/
abbrev IAddr := BitVec 17

end Sys2Proof
end

