-- ==== Sys2Proof/Syntax.lean ====
section
/-! DEFINITION. The instructions: one constructor per row of spec/opcode_table.json (30_encoding.md R73). -/

namespace Sys2Proof

/-- The nine rows of the opcode map (R73). No instruction has an operand (R72); `nop` carries its own word, since 248
words stand for it (R75), so that encoding and decoding lose no bit (log 13). -/
inductive Instr where
  /-- `>` RIGHT, R101. -/
  | right
  /-- `<` LEFT, R102. -/
  | left
  /-- `+` INC, R110. -/
  | inc
  /-- `-` DEC, R111. -/
  | dec
  /-- `.` OUT, R120. -/
  | output
  /-- `,` IN, R122. -/
  | input
  /-- `[` OPEN, R130. -/
  | openLoop
  /-- `]` CLOSE, R136. -/
  | closeLoop
  /-- every other word, NOP, R150. -/
  | nop (w : Byte)
  deriving DecidableEq, Repr

end Sys2Proof
end

