-- ==== Sys2Proof/WellFormed.lean ====
section
/-! DEFINITION. Which instruction terms stand for a word: all but a `nop` whose word is one of the eight codes. -/

namespace Sys2Proof

/-- The eight words that are not NOP, as 45_nop.md R150 lists them. -/
def notNopWords : List Byte :=
  [0x2B#8, 0x2C#8, 0x2D#8, 0x2E#8, 0x3C#8, 0x3E#8, 0x5B#8, 0x5D#8]

/-- A NOP is "any of the 248 words other than" those eight (R150); the other rows have one word each. -/
def Instr.wf (i : Instr) : Bool :=
  match i with
  | .nop w => !notNopWords.contains w
  | .right => true
  | .left => true
  | .inc => true
  | .dec => true
  | .output => true
  | .input => true
  | .openLoop => true
  | .closeLoop => true

end Sys2Proof
end

