-- ==== Sys2Proof/Decode.lean ====
section
/-! DEFINITION. Decode and encode (30_encoding.md R70 to R76). Decoding is an exact comparison of the whole word with
eight codes; it is total, and no word is illegal or reserved (R75), so there is nothing it rejects. The codes are the
ASCII codes of the characters, the spec's decision D1 (log 7). -/

namespace Sys2Proof

/-- `>` (R73). -/
def opRight : Byte := 0x3E#8
/-- `<` (R73). -/
def opLeft : Byte := 0x3C#8
/-- `+` (R73). -/
def opInc : Byte := 0x2B#8
/-- `-` (R73). -/
def opDec : Byte := 0x2D#8
/-- `.` (R73). -/
def opOut : Byte := 0x2E#8
/-- `,` (R73). -/
def opIn : Byte := 0x2C#8
/-- `[` (R73). -/
def opOpen : Byte := 0x5B#8
/-- `]` (R73). -/
def opClose : Byte := 0x5D#8

/-- R74: exact comparison with the eight codes; a word that matches none is `NOP`. -/
def decode (w : Byte) : Instr :=
  if w = opRight then .right
  else if w = opLeft then .left
  else if w = opInc then .inc
  else if w = opDec then .dec
  else if w = opOut then .output
  else if w = opIn then .input
  else if w = opOpen then .openLoop
  else if w = opClose then .closeLoop
  else .nop w

/-- The word of an instruction (R73). -/
def encode (i : Instr) : Byte :=
  match i with
  | .right => opRight
  | .left => opLeft
  | .inc => opInc
  | .dec => opDec
  | .output => opOut
  | .input => opIn
  | .openLoop => opOpen
  | .closeLoop => opClose
  | .nop w => w

/-- The match and mask pairs of an instruction's row in spec/opcode_table.json. The eight coded rows have mask 0xFF.
NOP's are the seventeen disjoint pairs of its "cover" (R74), which let a decoder do without a priority. -/
def rowPatterns (i : Instr) : List (Byte × Byte) :=
  match i with
  | .right => [(0x3E#8, 0xFF#8)]
  | .left => [(0x3C#8, 0xFF#8)]
  | .inc => [(0x2B#8, 0xFF#8)]
  | .dec => [(0x2D#8, 0xFF#8)]
  | .output => [(0x2E#8, 0xFF#8)]
  | .input => [(0x2C#8, 0xFF#8)]
  | .openLoop => [(0x5B#8, 0xFF#8)]
  | .closeLoop => [(0x5D#8, 0xFF#8)]
  | .nop _ =>
    [(0x00#8, 0xE0#8), (0x20#8, 0xF8#8), (0x28#8, 0xFE#8), (0x2A#8, 0xFF#8), (0x2F#8, 0xFF#8), (0x30#8, 0xF8#8),
     (0x38#8, 0xFC#8), (0x3D#8, 0xFF#8), (0x3F#8, 0xFF#8), (0x40#8, 0xF0#8), (0x50#8, 0xF8#8), (0x58#8, 0xFE#8),
     (0x5A#8, 0xFF#8), (0x5C#8, 0xFF#8), (0x5E#8, 0xFE#8), (0x60#8, 0xE0#8), (0x80#8, 0x80#8)]

/-- How many of a row's patterns a word matches: `w & mask = match`. -/
def rowMatches (i : Instr) (w : Byte) : Nat :=
  ((rowPatterns i).filter fun r => w &&& r.2 == r.1).length

/-- The host's view of the decoder: the instruction whose bits are `w`, bit 0 the least significant bit of the first
word. Every instruction is one word of 8 bits (R70), so only the low 8 bits of `w` are read, whatever `nbits` is. -/
def decodeTableWord (_nbits w : Nat) : Option Instr :=
  some (decode (BitVec.ofNat 8 w))

end Sys2Proof
end

