-- ==== Sys2Proof/Config.lean ====
section
/-! DEFINITION. What an instance of the engine fixes when it is built (00_scope.md, the parameter table after R7;
92_eei_decisions.md, "Open parameters in one place"). The engine has no undefined value, so there is no free value
here: the only open input, the host's answers on port IN, is data of State. -/

namespace Sys2Proof

/-- The instance constants. DESIGN CHOICE (log 3): State holds one of these, so that every statement over all states
is a statement over all instances, as R6, D3 and D6 ask ("a model takes it as an argument"). -/
structure Config.Params where
  /-- `TAPE_LEN`, the number of tape cells (R6). -/
  tapeLen : Nat
  /-- `IMEM_DEPTH`, the instruction words the instruction memory can hold (D3). -/
  imemDepth : Nat
  /-- `LS_DEPTH`, the entries the loop stack can hold (D6). -/
  lsDepth : Nat
  deriving DecidableEq, Repr

/-- The constraints of the parameter table: `TAPE_LEN >= 1`, `2^PTR_W > TAPE_LEN`, `IMEM_DEPTH >= 1`,
`2^IP_W > IMEM_DEPTH`, `LS_DEPTH >= 1`. -/
def Config.Params.wf (c : Config.Params) : Bool :=
  decide (1 ≤ c.tapeLen) && decide (c.tapeLen < 2 ^ 15) && decide (1 ≤ c.imemDepth) &&
    decide (c.imemDepth < 2 ^ 17) && decide (1 ≤ c.lsDepth)

/-- The spec's default instance: `TAPE_LEN` = 30000 (R6), `IMEM_DEPTH` = 65536 (D3), `LS_DEPTH` = `IMEM_DEPTH` (D6). -/
def Config.engine : Config.Params where
  tapeLen := 30000
  imemDepth := 65536
  lsDepth := 65536

/-- `IsSpace`, the default whitespace set (R78, D2; log 8). The host functions that use it take it as an argument. -/
def Config.isSpace (b : Byte) : Bool :=
  b == 0x09#8 || b == 0x0A#8 || b == 0x0B#8 || b == 0x0C#8 || b == 0x0D#8 || b == 0x20#8

end Sys2Proof
end

