-- ==== Sys2Proof/Machine/State.lean ====
section
/-! DEFINITION. The state of the engine as plain data (10_state.md R20 to R30), and its value right after reset (R38,
R191). Three fields are the model's own and say so: `inst`, `resetHeld`, `inAnswers`. -/

namespace Sys2Proof.Machine

/-- A memory of 8-bit units: (address, byte) pairs in one canonical form (addresses strictly rising, no entry equal to
what an unlisted address reads as: `Memory.wf` in Machine/Ops.lean; log 6). -/
abbrev Memory := List Host.Cell

/-- `status` (R29). Its fourth code, 3, is reserved and never produced; the type has no value for it, as U10 asks
(log 11). -/
inductive Status where
  /-- 0: the engine executes one step after another. -/
  | running
  /-- 1: the program ran off its end; normal termination. -/
  | halted
  /-- 2: a fault ended the run. -/
  | faulted
  deriving DecidableEq, Repr

/-- `fcause` (R30, R160): the cause code of the fault that ended the run. -/
inductive FaultCause where
  /-- 0, `None`. -/
  | noFault
  /-- 1: `[` met a zero cell and has no matching `]` (R161). -/
  | unmatchedOpenBracket
  /-- 2: a tape access with the pointer off the tape (R162). -/
  | pointerOutOfTape
  /-- 3: `[` pushed on a full loop stack (R163). -/
  | loopStackOverflow
  deriving DecidableEq, Repr

/-- One answer of the host to a poll on port IN (R31). -/
inductive PollAnswer where
  /-- `Byte(b)`. -/
  | byte (b : Byte)
  /-- `EndOfData`; it reads as byte 0 (R123) and is not sticky (D11). -/
  | endOfData
  deriving DecidableEq, Repr

/-- The whole state (R20), and three fields of the model's own. -/
structure State where
  /-- `p`, the pointer (R21). -/
  p : Ptr
  /-- `ip`, the instruction pointer (R22). -/
  ip : IAddr
  /-- The tape (R24). -/
  tape : Memory
  /-- The instruction memory (R25). -/
  imem : Memory
  /-- `prog_len` (R25). -/
  progLen : IAddr
  /-- The loop stack (R26), TOP FIRST: the head is the entry the next `]` pops (log 9). -/
  ls : List IAddr
  /-- The output sequence, oldest first; also what port OUT has emitted since reset (R27, R32). -/
  out : List Byte
  /-- The pre-supplied input not yet consumed, next byte first (R28). -/
  inbuf : List Byte
  /-- `status` (R29). -/
  status : Status
  /-- `fcause` (R30). -/
  fcause : FaultCause
  /-- `fpos` (R30). -/
  fpos : IAddr
  /-- The model's own: the constants this instance was built with (R6, R37). Nothing writes it (log 3). -/
  inst : Config.Params
  /-- The model's own: the host is applying reset (R190); the engine performs no step (log 4). -/
  resetHeld : Bool
  /-- The model's own: the host's answers on port IN not yet taken by a poll, next first (R31, R37 (d); log 2). -/
  inAnswers : List PollAnswer
  deriving DecidableEq, Repr

/-- Why a step could stop with a fault. It has NO constructor: the engine's three faults are states (`status` =
Faulted, R166), and R170 leaves no program content without an outcome, so no step ends here (log 12). -/
inductive Fault where
  deriving DecidableEq, Repr

/-- Why something is refused. -/
inductive Refusal where
  /-- An arm of exec without a meaning. No arm raises it; safe. -/
  | notModelled (mnemonic : String)
  /-- Raised by the host's LOAD (Machine/HostPort.lean), never by a step: the stripped program has more than
  IMEM_DEPTH words, is "refused by the host loader and never runs" (R33, D18, U13); safe. -/
  | programTooLong
  deriving DecidableEq, Repr

/-- The machine right after reset (R38, R191) with nothing loaded yet: the default instance, the empty program and no
input. Reset itself leaves `imem` and `prog_len` as loaded; what they hold before any load is log 5. -/
def State.reset : State where
  p := 0
  ip := 0
  tape := []
  imem := []
  progLen := 0
  ls := []
  out := []
  inbuf := []
  status := .running
  fcause := .noFault
  fpos := 0
  inst := Config.engine
  resetHeld := false
  inAnswers := []

end Sys2Proof.Machine
end

