-- ==== Sys2Proof/Machine/Flags.lean ====
section
/-! DEFINITION. The 8-bit ALU (42_arithmetic.md R112, R114). The engine stores no flag (10_state.md R23): the ALU's one
condition output `z` is used by `[` inside its own step and nowhere else. -/

namespace Sys2Proof.Machine

/-- The ALU operations that give a result `r` (R114). -/
inductive AluOp where
  /-- used by `+` -/
  | inc
  /-- used by `-` -/
  | dec
  /-- used by `,` and `.` -/
  | pass
  deriving DecidableEq, Repr

/-- The result output `r` (R114): plus or minus one modulo 256 (R112), or the input itself. -/
def aluResult (op : AluOp) (a : Byte) : Byte :=
  match op with
  | .inc => a + 1#8
  | .dec => a - 1#8
  | .pass => a

/-- The output `z` of operation TEST (R114): 1 if `a = 0`. -/
def aluTest (a : Byte) : Bool :=
  a == 0#8

end Sys2Proof.Machine
end

