-- ==== Sys2Proof/Machine/Ops.lean ====
section
/-! DEFINITION. The named operations over memory, registers, the loop stack and the two sequences; fault entry; the
parts of a step around the instruction (20_memory.md R54 to R56, 10_state.md R26 to R28, 43_io.md R123,
60_exceptions.md R166, 40_execution_cycle.md R91 and R92). -/

namespace Sys2Proof.Machine

/-! ## Memory -/

/-- What an unlisted address reads as: 0. For the tape this is the spec's reset value of every cell (R24); for the
instruction memory it is a DESIGN CHOICE that nothing reads (log 5, log 6). -/
def Memory.unlisted : Byte := 0#8

/-- The unit at address `a`. -/
def Memory.read (m : Memory) (a : Nat) : Byte :=
  match m with
  | [] => Memory.unlisted
  | (b, v) :: m' => if b = a then v else Memory.read m' a

/-- `m` without an entry for `a`. -/
def Memory.erase (m : Memory) (a : Nat) : Memory :=
  m.filter fun c => c.1 != a

/-- `m` with the entry `(a, v)` at its place in address order. -/
def Memory.insert (m : Memory) (a : Nat) (v : Byte) : Memory :=
  match m with
  | [] => [(a, v)]
  | (b, x) :: m' =>
    if a < b then (a, v) :: (b, x) :: m'
    else if a = b then (a, v) :: m'
    else (b, x) :: Memory.insert m' a v

/-- `m` with address `a` holding `v`, in canonical form again. -/
def Memory.write (m : Memory) (a : Nat) (v : Byte) : Memory :=
  if v = Memory.unlisted then Memory.erase m a else Memory.insert m a v

/-- `m` with the words `ws` at `base`, `base + 1`, … -/
def Memory.writeFrom (m : Memory) (base : Nat) (ws : List Byte) : Memory :=
  match ws with
  | [] => m
  | w :: ws' => Memory.writeFrom (Memory.write m base w) (base + 1) ws'

/-- The canonical form: addresses strictly rising, no entry equal to what an unlisted address reads as. -/
def Memory.wf (m : Memory) : Bool :=
  match m with
  | [] => true
  | (a, v) :: m' => v != Memory.unlisted && m'.all (fun c => decide (a < c.1)) && Memory.wf m'

/-- Every listed address is below `n`. -/
def Memory.below (m : Memory) (n : Nat) : Bool :=
  m.all fun c => decide (c.1 < n)

/-! ## Register writes -/

/-- `p <- v`. -/
def setP (v : Ptr) (s : State) : State := { s with p := v }
/-- `ip <- v`. -/
def setIp (v : IAddr) (s : State) : State := { s with ip := v }
/-- The tape becomes `m`. -/
def setTape (m : Memory) (s : State) : State := { s with tape := m }
/-- The loop stack becomes `l`. -/
def setLs (l : List IAddr) (s : State) : State := { s with ls := l }
/-- The output sequence becomes `l`. -/
def setOut (l : List Byte) (s : State) : State := { s with out := l }
/-- The pre-supplied input becomes `l`. -/
def setInbuf (l : List Byte) (s : State) : State := { s with inbuf := l }
/-- The answers on port IN not yet taken become `l`. -/
def setInAnswers (l : List PollAnswer) (s : State) : State := { s with inAnswers := l }

/-- `ip <- ip + 1` (R94). In every state the invariant of R39 admits, the sum does not wrap (R22; log 10). -/
def advance (s : State) : State := setIp (s.ip + 1#17) s

/-! ## Faults and the halt -/

/-- The fault record: `status <- Faulted`, `fcause <- code`, `fpos <- ip`, nothing else (R166). -/
def enterFault (c : FaultCause) (s : State) : State :=
  { s with status := .faulted, fcause := c, fpos := s.ip }

/-- `raise F(ip)`: taking a fault is the whole effect of the step, and a NEXT state (R166). There is no return from it
(R167). -/
def raise (c : FaultCause) (s : State) : Host.Outcome State Fault Refusal :=
  .next (enterFault c s)

/-- The halting step: `status <- Halted`, nothing else (R92). -/
def halt (s : State) : State := { s with status := .halted }

/-- The 2-bit code of `status` (R29). -/
def statusCode (x : Status) : BitVec 2 :=
  match x with
  | .running => 0#2
  | .halted => 1#2
  | .faulted => 2#2

/-- The 2-bit code of `fcause` (R30). -/
def causeCode (c : FaultCause) : BitVec 2 :=
  match c with
  | .noFault => 0#2
  | .unmatchedOpenBracket => 1#2
  | .pointerOutOfTape => 2#2
  | .loopStackOverflow => 3#2

/-! ## The access primitives -/

/-- `a` addresses no cell. Only `a = TAPE_LEN` is reachable (R39); larger values are treated alike, as U6 asks
(log 10). -/
def offTape (s : State) (a : Ptr) : Bool := decide (s.inst.tapeLen ≤ a.toNat)

/-- `MemRead(a, 1)` (R54); `none` is its fault `PointerOutOfTape`. -/
def memRead (s : State) (a : Ptr) : Option Byte :=
  if offTape s a then none else some (s.tape.read a.toNat)

/-- `MemWrite(a, 1, v)` (R55); `none` is its fault `PointerOutOfTape`. -/
def memWrite (a : Ptr) (v : Byte) (s : State) : Option State :=
  if offTape s a then none else some (setTape (s.tape.write a.toNat v) s)

/-- `Fetch(a)` (R56). -/
def fetch (s : State) (a : IAddr) : Byte := s.imem.read a.toNat

/-! ## The loop stack -/

/-- `Push(ls, v)`; `none` when the stack holds `LS_DEPTH` entries: `LoopStackOverflow` (R26, R163). -/
def pushLoop (v : IAddr) (s : State) : Option State :=
  if s.inst.lsDepth ≤ s.ls.length then none else some (setLs (v :: s.ls) s)

/-- `Pop(ls)`: the top entry and the state without it; `none` when `Empty(ls)` (R26). -/
def popLoop (s : State) : Option (IAddr × State) :=
  match s.ls with
  | [] => none
  | k :: rest => some (k, setLs rest s)

/-! ## Input and output -/

/-- `Append(out, b)` and `Emit(b)`: one sequence stands for both sinks (R27, R32, R120). -/
def emit (b : Byte) (s : State) : State := setOut (s.out ++ [b]) s

/-- `InPoll()` and the reading of its answer (R31, R123): exactly one answer is taken. `none`: the host has not
answered yet (R124). -/
def inPoll (s : State) : Option (Byte × State) :=
  match s.inAnswers with
  | [] => none
  | .byte b :: rest => some (b, setInAnswers rest s)
  | .endOfData :: rest => some (0#8, setInAnswers rest s)

/-- `InNext()` (R123): the pre-supplied bytes first, in order; then one poll. -/
def inNext (s : State) : Option (Byte × State) :=
  match s.inbuf with
  | b :: rest => some (b, setInbuf rest s)
  | [] => inPoll s

/-! ## The step around the instruction -/

/-- The engine performs no step: reset is applied (R190), or the run has ended (R96). -/
def idle (s : State) : Bool := s.resetHeld || s.status != .running

/-- `ip >= prog_len`, the opening test of a step (R91, R92). -/
def pastEnd (s : State) : Bool := decide (s.progLen.toNat ≤ s.ip.toNat)

/-- The instruction at `ip` (R91). -/
def nextInstr (s : State) : Instr := decode (fetch s s.ip)

/-- `s` with the word `w` where the next step fetches: in `imem` at `ip`, inside the program, with the engine running
(log 5). -/
def placeWord (w : Byte) (s : State) : State :=
  { s with
    imem := s.imem.write s.ip.toNat w
    progLen := if s.ip.toNat < s.progLen.toNat then s.progLen else s.ip + 1#17
    status := .running
    resetHeld := false }

end Sys2Proof.Machine
end

