-- ==== Sys2Proof/Machine/Operands.lean ====
section
/-! DEFINITION. Operands. No instruction has an explicit one (30_encoding.md R72); the one addressing mode is
pointer-indirect (20_memory.md R53): the effective address is the current value of `p`, unmodified. -/

namespace Sys2Proof.Machine

/-- The effective address of every data access (R53). -/
def effectiveAddr (s : State) : Ptr := s.p

/-- The current cell, read (R54); `none` is `PointerOutOfTape`. -/
def currentCell (s : State) : Option Byte := memRead s (effectiveAddr s)

/-- The current cell, written, and the step's advance (R55, R94); off the tape, the fault `PointerOutOfTape`. -/
def storeCell (v : Byte) (s : State) : Host.Outcome State Fault Refusal :=
  match memWrite (effectiveAddr s) v s with
  | none => raise .pointerOutOfTape s
  | some t => .next (advance t)

end Sys2Proof.Machine
end

