-- ==== Sys2Proof/Machine/Arithmetic.lean ====
section
/-! DEFINITION. Cell arithmetic `+` and `-` (42_arithmetic.md). -/

namespace Sys2Proof.Machine

/-- Read the current cell, put it through the ALU, write it back, advance (R110, R111). -/
def modifyCell (op : AluOp) (s : State) : Host.Outcome State Fault Refusal :=
  match currentCell s with
  | none => raise .pointerOutOfTape s
  | some v => storeCell (aluResult op v) s

/-- `+` INC (R110). -/
def execInc (s : State) : Host.Outcome State Fault Refusal := modifyCell .inc s

/-- `-` DEC (R111). -/
def execDec (s : State) : Host.Outcome State Fault Refusal := modifyCell .dec s

end Sys2Proof.Machine
end

