-- ==== Sys2Proof/Machine/InOut.lean ====
section
/-! DEFINITION. Input and output `.` and `,` (43_io.md). -/

namespace Sys2Proof.Machine

/-- `.` OUT (R120): off the tape nothing is appended or emitted. -/
def execOutput (s : State) : Host.Outcome State Fault Refusal :=
  match currentCell s with
  | none => raise .pointerOutOfTape s
  | some v => .next (advance (emit (aluResult .pass v) s))

/-- `,` IN (R122): the range check comes first, before any input is consumed. While the host has not answered the poll
the step is held: `status` stays Running and no state changes (R124; log 2). -/
def execInput (s : State) : Host.Outcome State Fault Refusal :=
  if offTape s (effectiveAddr s) then raise .pointerOutOfTape s
  else
    match inNext s with
    | none => .next s
    | some (b, t) => storeCell (aluResult .pass b) t

end Sys2Proof.Machine
end

