-- ==== Sys2Proof/Machine/Loop.lean ====
section
/-! DEFINITION. The loop instructions `[` and `]` and the forward bracket scan (44_loop.md). -/

namespace Sys2Proof.Machine

/-- The loop of `MatchClose` (R132): `n` is how many addresses are left before `prog_len`, `j` the scan position and
`depth` the nesting counter. Words other than the two brackets are passed over (R76). -/
def scanClose (imem : Memory) (n j depth : Nat) : Option Nat :=
  match n with
  | 0 => none
  | n' + 1 =>
    if imem.read j = opOpen then scanClose imem n' (j + 1) (depth + 1)
    else if imem.read j = opClose then
      match depth with
      | 0 => some j
      | d + 1 => scanClose imem n' (j + 1) d
    else scanClose imem n' (j + 1) depth

/-- `MatchClose(i)` (R132): the address of the `]` that matches a `[` at `i`, or `none`. -/
def matchClose (s : State) (i : IAddr) : Option IAddr :=
  (scanClose s.imem (s.progLen.toNat - (i.toNat + 1)) (i.toNat + 1) 0).map (BitVec.ofNat 17)

/-- The zero arm of `[`: skip the loop, or the fault `UnmatchedOpenBracket` (R130). -/
def skipLoop (s : State) : Host.Outcome State Fault Refusal :=
  match matchClose s s.ip with
  | none => raise .unmatchedOpenBracket s
  | some m => .next (setIp (m + 1#17) s)

/-- The non-zero arm of `[`: push its own address and fall into the body, or the fault `LoopStackOverflow` (R130). -/
def enterLoop (s : State) : Host.Outcome State Fault Refusal :=
  match pushLoop s.ip s with
  | none => raise .loopStackOverflow s
  | some t => .next (advance t)

/-- `[` OPEN (R130), its tests in the order of R131. -/
def execOpenLoop (s : State) : Host.Outcome State Fault Refusal :=
  match currentCell s with
  | none => raise .pointerOutOfTape s
  | some v => if aluTest v then skipLoop s else enterLoop s

/-- `]` CLOSE (R136): pop and jump back to the `[`; with an empty stack, a silent no-op. It reads no cell. -/
def execCloseLoop (s : State) : Host.Outcome State Fault Refusal :=
  match popLoop s with
  | none => .next (advance s)
  | some (k, t) => .next (setIp k t)

end Sys2Proof.Machine
end

