-- ==== Sys2Proof/Machine/NoOp.lean ====
section
/-! DEFINITION. Every other word (45_nop.md). -/

namespace Sys2Proof.Machine

/-- `NOP` (R150): nothing but `ip <- ip + 1`, whatever the word. -/
def execNop (_w : Byte) (s : State) : Host.Outcome State Fault Refusal :=
  .next (advance s)

end Sys2Proof.Machine
end

