-- ==== Sys2Proof/Machine/Pointer.lean ====
section
/-! DEFINITION. The pointer family `>` and `<` and the wraparound logic (41_pointer.md). Neither touches the tape and
neither can fault (R100). The two boundary rules are not mirror images, and are reproduced as they are (U1). -/

namespace Sys2Proof.Machine

/-- The pointer after `>` (R101). -/
def movedRight (tapeLen : Nat) (p : Ptr) : Ptr :=
  if p.toNat < tapeLen - 1 then p + 1#15 else 0#15

/-- The pointer after `<` (R102): from 0 it goes to `TAPE_LEN`, one past the last cell. -/
def movedLeft (tapeLen : Nat) (p : Ptr) : Ptr :=
  if 0 < p.toNat then p - 1#15 else BitVec.ofNat 15 tapeLen

/-- `>` RIGHT (R101). -/
def execRight (s : State) : Host.Outcome State Fault Refusal :=
  .next (advance (setP (movedRight s.inst.tapeLen s.p) s))

/-- `<` LEFT (R102). -/
def execLeft (s : State) : Host.Outcome State Fault Refusal :=
  .next (advance (setP (movedLeft s.inst.tapeLen s.p) s))

end Sys2Proof.Machine
end

