-- ==== Sys2Proof/Machine/Dispatch.lean ====
section
/-! DEFINITION. The dispatch: one arm per row of the opcode map (40_execution_cycle.md R91). -/

namespace Sys2Proof.Machine

/-- One instruction at the state of the start of its step (R91). -/
def exec (i : Instr) (s : State) : Host.Outcome State Fault Refusal :=
  match i with
  | .right => Sys2Proof.Machine.execRight s
  | .left => Sys2Proof.Machine.execLeft s
  | .inc => Sys2Proof.Machine.execInc s
  | .dec => Sys2Proof.Machine.execDec s
  | .output => Sys2Proof.Machine.execOutput s
  | .input => Sys2Proof.Machine.execInput s
  | .openLoop => Sys2Proof.Machine.execOpenLoop s
  | .closeLoop => Sys2Proof.Machine.execCloseLoop s
  | .nop w => Sys2Proof.Machine.execNop w s

end Sys2Proof.Machine
end

