-- ==== Sys2Proof/Machine/Step.lean ====
section
/-! DEFINITION. One step of the engine (40_execution_cycle.md R90 to R96). -/

namespace Sys2Proof.Machine

/-- One step (R91). Under reset (R190) and in a terminal status (R96) the engine performs no step: the state stays as
it is (log 1). Else the halt test, then fetch, decode, execute. -/
def step (s : State) : Host.Outcome State Fault Refusal :=
  if idle s then .next s
  else if pastEnd s then .next (halt s)
  else exec (nextInstr s) s

/-- `s` with the instruction whose bits are `w` placed where `step` fetches next (log 5). -/
def State.withFetchWord (s : State) (_nbits w : Nat) : State :=
  placeWord (BitVec.ofNat 8 w) s

end Sys2Proof.Machine
end

