-- ==== Sys2Proof/Machine/HostPort.lean ====
section
/-! DEFINITION. What the host can do through the ports RESET, LOAD, IN and RESULT, and the host-side functions the spec
defines: stripping, Trim, the returned text, the contract (10_state.md R31 to R34, 30_encoding.md R78,
70_reset_and_hazards.md R190 to R200). No instruction depends on anything here. -/

namespace Sys2Proof.Machine

/-! ## Reset and LOAD -/

/-- Reset is applied (R191): everything but `imem`, `prog_len` and the instance constants takes its reset value, and
the host's earlier answers on IN are gone with their run (log 2). -/
def applyReset (s : State) : State :=
  { State.reset with imem := s.imem, progLen := s.progLen, inst := s.inst, resetHeld := true }

/-- Reset is released (R193 (4)): the run begins. -/
def releaseReset (s : State) : State := { s with resetHeld := false }

/-- `LOAD` of a stripped program (R33, R193): `imem[0 .. n-1]` and `prog_len <- n`. -/
def loadedWords (ws : List Byte) (s : State) : State :=
  { s with imem := s.imem.writeFrom 0 ws, progLen := BitVec.ofNat 17 ws.length }

/-- `LOAD` of a program: only under reset, no effect otherwise (R33, U20); longer than `IMEM_DEPTH`, refused (D18). -/
def loadProgram (ws : List Byte) (s : State) : Host.Outcome State Fault Refusal :=
  if s.resetHeld then
    if ws.length ≤ s.inst.imemDepth then .next (loadedWords ws s) else .refused .programTooLong
  else .next s

/-- `LOAD` of the input text's bytes, in their order: only under reset, no effect otherwise (R33, R193 (3)). -/
def loadInput (bs : List Byte) (s : State) : State :=
  if s.resetHeld then setInbuf bs s else s

/-! ## Port IN, the host's side -/

/-- A poll is outstanding (R31, R124): the step at hand is a `,` on the tape with no pre-supplied byte and no answer. -/
def pollPending (s : State) : Bool :=
  !idle s && !pastEnd s && nextInstr s == .input && !offTape s s.p && s.inbuf.isEmpty && s.inAnswers.isEmpty

/-- The host answers: once per poll, and only while one is outstanding (R31, R195; log 14). -/
def answerPoll (a : PollAnswer) (s : State) : State :=
  if pollPending s then setInAnswers [a] s else s

/-! ## Everything the host can do (R195) -/

/-- The host's actions that can change the engine's state. -/
inductive HostAction where
  /-- Apply reset, at any time, in any status (R192). -/
  | applyReset
  /-- Load the stripped program. -/
  | loadProgram (ws : List Byte)
  /-- Load the input bytes. -/
  | loadInput (bs : List Byte)
  /-- Release reset. -/
  | releaseReset
  /-- Answer an input poll. -/
  | answer (a : PollAnswer)
  deriving DecidableEq, Repr

/-- The state after an action of the host. -/
def hostStep (a : HostAction) (s : State) : Host.Outcome State Fault Refusal :=
  match a with
  | .applyReset => .next (applyReset s)
  | .loadProgram ws => loadProgram ws s
  | .loadInput bs => .next (loadInput bs s)
  | .releaseReset => .next (releaseReset s)
  | .answer x => .next (answerPoll x s)

/-! ## The loader and the result -/

/-- The whitespace stripping of the host loader (R78). -/
def strip (isSpace : Byte → Bool) (text : List Byte) : List Byte :=
  text.filter fun b => !isSpace b

/-- The boot order of R193 under an applied reset: strip and check, load the program, load the input, release. -/
def boot (isSpace : Byte → Bool) (text input : List Byte) (s : State) : Host.Outcome State Fault Refusal :=
  match loadProgram (strip isSpace text) (applyReset s) with
  | .next t => .next (releaseReset (loadInput input t))
  | .fault f => .fault f
  | .refused r => .refused r

/-- `Trim` (R197): without the longest prefix and, of what remains, the longest suffix of whitespace bytes. -/
def trim (isSpace : Byte → Bool) (s : List Byte) : List Byte :=
  ((s.dropWhile isSpace).reverse.dropWhile isSpace).reverse

/-- A run has ended exactly when `status` is Halted or Faulted (R200). -/
def ended (s : State) : Bool := s.status == .halted || s.status == .faulted

/-- What port RESULT shows (R34). -/
structure ResultPort where
  /-- `status`, 2 bits (R29). -/
  status : BitVec 2
  /-- `fcause`, 2 bits (R30). -/
  fcause : BitVec 2
  /-- `fpos` (R30). -/
  fpos : IAddr
  /-- `out` (R27). -/
  out : List Byte
  deriving DecidableEq, Repr

/-- Port RESULT (R34): nothing else of the state is exposed. -/
def resultPort (s : State) : ResultPort where
  status := statusCode s.status
  fcause := causeCode s.fcause
  fpos := s.fpos
  out := s.out

/-- The text the host returns (R197, R198): `Trim(out)` of an ended run, a faulted one alike; before the end, none. -/
def returnedText (isSpace : Byte → Bool) (s : State) : Option (List Byte) :=
  if ended s then some (trim isSpace s.out) else none

/-- `EXIT_OUTCOME` is OPEN (R199, D16): the host's own function of the two codes, here an argument (log 15). -/
def exitOutcome {ε : Type} (outcome : BitVec 2 → BitVec 2 → ε) (s : State) : Option ε :=
  if ended s then some (outcome (statusCode s.status) (causeCode s.fcause)) else none

/-- `k` steps of the engine with nothing done by the host in between. -/
def runFor (k : Nat) (s : State) : Host.Outcome State Fault Refusal :=
  match k with
  | 0 => .next s
  | k' + 1 =>
    match step s with
    | .next t => runFor k' t
    | .fault f => .fault f
    | .refused r => .refused r

/-- `execute(program_text, input_text) -> text` (R198), for an instance `s`, the host's whitespace set and the sequence
of answers it gives on IN (R37 (d)): boot, run until the run has ended, return `Trim(out)`. -/
def Executes (isSpace : Byte → Bool) (text input : List Byte) (answers : List PollAnswer) (s : State)
    (result : List Byte) : Prop :=
  ∃ t u k, boot isSpace text input s = .next t ∧ runFor k (setInAnswers answers t) = .next u ∧
    returnedText isSpace u = some result

end Sys2Proof.Machine
end

