-- ==== Sys2Proof/Safety.lean ====
section
/-! DEFINITION. What claims are stated in: the invariants of reachable states (10_state.md R39, 44_loop.md R138),
reachability, the two kinds of end, balanced programs (44_loop.md R140). -/

namespace Sys2Proof.Machine

/-- A word of the program at `a` (R25): addresses `>= prog_len` hold no word of the program. -/
def programWord (s : State) (a : Nat) : Option Byte :=
  if a < s.progLen.toNat then some (s.imem.read a) else none

/-! ## The invariant -/

/-- The parameters meet their constraints, and both memories are canonical and inside their size. -/
structure MemoriesFit (s : State) : Prop where
  inst : s.inst.wf = true
  tapeWf : s.tape.wf = true
  tapeBelow : s.tape.below s.inst.tapeLen = true
  imemWf : s.imem.wf = true
  imemBelow : s.imem.below s.inst.imemDepth = true
  progLen : s.progLen.toNat ≤ s.inst.imemDepth

/-- R39 (a), (b): the two index registers are in range. `ip = 0` is the state of the first step, so nothing has moved
yet (R138). -/
structure IndexesFit (s : State) : Prop where
  pointer : s.p.toNat ≤ s.inst.tapeLen
  ip : s.ip.toNat ≤ s.progLen.toNat
  first : s.ip = 0 → s.p = 0 ∧ s.tape = []

/-- R39 (c), (d), R138, and the capacity of R26: the loop stack. `ls` is top first, so it falls. -/
structure LoopStackFits (s : State) : Prop where
  falling : s.ls.Pairwise (fun upper lower => lower.toNat < upper.toNat)
  below : ∀ e ∈ s.ls, e.toNat < s.ip.toNat
  positive : ∀ e ∈ s.ls, 1 ≤ e.toNat
  bracket : ∀ e ∈ s.ls, programWord s e.toNat = some opOpen
  capacity : s.ls.length ≤ s.inst.lsDepth

/-- R39 (e), R30, U11, R92, R166: the status registers agree with each other. -/
structure RecordFits (s : State) : Prop where
  cause : s.status = .faulted ↔ s.fcause ≠ .noFault
  position : s.status ≠ .faulted → s.fpos = 0
  faultHere : s.status = .faulted → s.fpos = s.ip ∧ s.ip.toNat < s.progLen.toNat
  haltEnd : s.status = .halted → s.ip = s.progLen
  underReset : s.resetHeld = true → s.status = .running ∧ s.ip = 0 ∧ s.out = []

/-- The invariant of reachable states. -/
structure Inv (s : State) : Prop where
  memories : MemoriesFit s
  indexes : IndexesFit s
  stack : LoopStackFits s
  record : RecordFits s

/-- The states reachable from reset by any instance, any host behaviour and the engine's own steps. -/
inductive Reachable : State → Prop where
  | reset (c : Config.Params) (h : c.wf = true) : Reachable { State.reset with inst := c }
  | engine (s t : State) (h : Reachable s) (hs : step s = .next t) : Reachable t
  | host (s t : State) (a : HostAction) (h : Reachable s) (hs : hostStep a s = .next t) : Reachable t

/-! ## Terms of the laws -/

/-- The same instruction `k` times in a row. -/
def repeatExec (k : Nat) (i : Instr) (s : State) : Host.Outcome State Fault Refusal :=
  match k with
  | 0 => .next s
  | k' + 1 =>
    match exec i s with
    | .next t => repeatExec k' i t
    | .fault f => .fault f
    | .refused r => .refused r

/-- How many of the `n` words from address `lo` on are `w`. -/
def countWord (s : State) (w : Byte) (lo n : Nat) : Nat :=
  ((List.range n).filter fun k => s.imem.read (lo + k) == w).length

/-- The five instructions that access the tape (R50, R162). -/
def accessesTape (i : Instr) : Bool :=
  match i with
  | .inc => true
  | .dec => true
  | .output => true
  | .input => true
  | .openLoop => true
  | .right => false
  | .left => false
  | .closeLoop => false
  | .nop _ => false

/-! ## What counts as a safe run -/

/-- The only successful end (R96, R200). -/
def Succeeded (s : State) : Prop := s.status = .halted

/-- A run that a fault ended (R166). -/
def Failed (s : State) : Prop := s.status = .faulted

/-! ## Balanced programs (R140) -/

/-- Whether the word at `a` of the program is `w`. -/
def holdsWord (s : State) (a : Nat) (w : Byte) : Prop := programWord s a = some w

/-- `MatchClose(o) = c`, on numbers. -/
def pairs (s : State) (o c : Nat) : Prop :=
  scanClose s.imem (s.progLen.toNat - (o + 1)) (o + 1) 0 = some c

/-- R140: every `[` has a match, and every `]` is the match of exactly one `[`. -/
structure BalancedProgram (s : State) : Prop where
  opens : ∀ o, holdsWord s o opOpen → ∃ c, pairs s o c
  closes : ∀ c, holdsWord s c opClose → ∃! o, holdsWord s o opOpen ∧ pairs s o c

/-- `o` is a `[` that encloses `ip`: `o < ip <= MatchClose(o)` (R140). -/
def encloses (s : State) (o : Nat) : Prop :=
  holdsWord s o opOpen ∧ o < s.ip.toNat ∧ ∃ c, pairs s o c ∧ s.ip.toNat ≤ c

/-- R140: the loop stack is exactly the list of the brackets that enclose `ip`, increasing from bottom to top. -/
structure StackEncloses (s : State) : Prop where
  falling : s.ls.Pairwise (fun upper lower => lower.toNat < upper.toNat)
  exact : ∀ o, (∃ e ∈ s.ls, e.toNat = o) ↔ encloses s o

end Sys2Proof.Machine
end

