-- ==== Sys2Proof/Certificates/Slice0/Obligations.lean ====
section
/-! DEFINITION. The statements for the provers. Each names the rule of spec/ it formalises. A hypothesis on
`s.inst` is the constraint of the parameter table (00_scope.md, after R7); `inst`, `resetHeld` and `inAnswers` are the
model's own fields (log 3, 4, 2). Where a rule of spec/ rests on a decision of the spec itself, D<n> of
92_eei_decisions.md, the statement names it; the fault off the tape, PointerOutOfTape, is D5 throughout. -/

open Sys2Proof Sys2Proof.Machine

/-! ## Encoding -/

/-- The words of R73 and the NOP neighbours of 95_test_vectors.md, "Decode". -/
def Obligations.TableWordsDecode : Prop :=
  decode 0x3E#8 = .right ∧ decode 0x3C#8 = .left ∧ decode 0x2B#8 = .inc ∧ decode 0x2D#8 = .dec ∧
  decode 0x2E#8 = .output ∧ decode 0x2C#8 = .input ∧ decode 0x5B#8 = .openLoop ∧ decode 0x5D#8 = .closeLoop ∧
  ∀ w ∈ [0x2A#8, 0x2F#8, 0x3B#8, 0x3D#8, 0x3F#8, 0x5A#8, 0x5C#8, 0x5E#8, 0xAB#8, 0xAC#8, 0xAD#8, 0xAE#8, 0xBC#8,
    0xBE#8, 0xDB#8, 0xDD#8, 0x7B#8, 0x7D#8], decode w = .nop w

/-- R74: decoding is an exact comparison with the eight codes, in any order; a word matches exactly one pattern of its
row in the opcode table, and no pattern of another row. -/
def Obligations.DecodeMatchesOneRow : Prop :=
  ∀ w : Byte,
    ((decode w = .right ↔ w = 0x3E#8) ∧ (decode w = .left ↔ w = 0x3C#8) ∧ (decode w = .inc ↔ w = 0x2B#8) ∧
      (decode w = .dec ↔ w = 0x2D#8) ∧ (decode w = .output ↔ w = 0x2E#8) ∧ (decode w = .input ↔ w = 0x2C#8) ∧
      (decode w = .openLoop ↔ w = 0x5B#8) ∧ (decode w = .closeLoop ↔ w = 0x5D#8) ∧
      (decode w = .nop w ↔ w ∉ notNopWords)) ∧
    rowMatches (decode w) w = 1 ∧
    ∀ i : Instr, rowMatches i w ≠ 0 → rowPatterns i = rowPatterns (decode w)

/-- Decode and encode are inverse to each other: the well-formed instructions are the 256 words (R70, R73, R75). -/
def Obligations.EncodeDecodeInverse : Prop :=
  (∀ i : Instr, i.wf = true → decode (encode i) = i) ∧
  ∀ w : Byte, (decode w).wf = true ∧ encode (decode w) = w

/-! ## The pointer family -/

/-- R101: `>`, from its encoding to its law. -/
def Obligations.RightMovesAndWraps : Prop :=
  encode .right = 0x3E#8 ∧ decode 0x3E#8 = .right ∧
  (∀ s : State, s.inst.wf = true →
    ∃ t, exec .right s = .next t ∧ t = { s with p := t.p, ip := s.ip + 1#17 } ∧
      t.p.toNat = if s.p.toNat < s.inst.tapeLen - 1 then s.p.toNat + 1 else 0) ∧
  (∀ s : State, s.inst.wf = true → s.p.toNat < s.inst.tapeLen →
    repeatExec s.inst.tapeLen .right s = .next { s with ip := s.ip + BitVec.ofNat 17 s.inst.tapeLen }) ∧
  (∀ s : State, s.inst.wf = true → s.p.toNat = s.inst.tapeLen →
    ∃ t, repeatExec s.inst.tapeLen .right s = .next t ∧ t.p.toNat = s.inst.tapeLen - 1)

/-- R102: `<`, from its encoding to its law. The two last clauses, the period `TAPE_LEN + 1` of `<` and the period
`TAPE_LEN` of `>`, are an inference that the spec draws from R101 and R102 and marks as its own ("There is no law for
`<` in the source's §8"). -/
def Obligations.LeftMovesAndLeavesTape : Prop :=
  encode .left = 0x3C#8 ∧ decode 0x3C#8 = .left ∧
  (∀ s : State, s.inst.wf = true →
    ∃ t, exec .left s = .next t ∧ t = { s with p := t.p, ip := s.ip + 1#17 } ∧
      t.p.toNat = if 0 < s.p.toNat then s.p.toNat - 1 else s.inst.tapeLen) ∧
  (∀ s : State, s.inst.wf = true → s.p = 0 → ∀ k, 1 ≤ k → k ≤ s.inst.tapeLen + 1 →
    ∃ t, repeatExec k .left s = .next t ∧ t.p.toNat = s.inst.tapeLen + 1 - k) ∧
  (∀ s : State, s.inst.wf = true → s.p = 0 → ∀ k, 1 ≤ k → k ≤ s.inst.tapeLen →
    ∃ t, repeatExec k .right s = .next t ∧ t.p.toNat = if k < s.inst.tapeLen then k else 0)

/-- R103, which the spec derives from R101 and R102 and D5: the transition table of the pointer, row by row, and in which rows which instructions fault. -/
def Obligations.PointerTransitionTable : Prop :=
  ∀ s : State, s.inst.wf = true → s.p.toNat ≤ s.inst.tapeLen →
    ∃ r l, exec .right s = .next r ∧ exec .left s = .next l ∧
      (s.p = 0 → r.p.toNat = (if s.inst.tapeLen = 1 then 0 else 1) ∧ l.p.toNat = s.inst.tapeLen) ∧
      (1 ≤ s.p.toNat → s.p.toNat + 2 ≤ s.inst.tapeLen →
        r.p.toNat = s.p.toNat + 1 ∧ l.p.toNat = s.p.toNat - 1) ∧
      (2 ≤ s.inst.tapeLen → s.p.toNat + 1 = s.inst.tapeLen → r.p = 0 ∧ l.p.toNat + 2 = s.inst.tapeLen) ∧
      (s.p.toNat = s.inst.tapeLen → r.p = 0 ∧ l.p.toNat + 1 = s.inst.tapeLen) ∧
      (∀ i : Instr, s.status = .running → accessesTape i = true →
        (exec i s = raise .pointerOutOfTape s ↔ s.p.toNat = s.inst.tapeLen)) ∧
      (∀ (i : Instr) (t : State), s.status = .running → accessesTape i = false → exec i s = .next t →
        t.status = .running)

/-! ## Cell arithmetic -/

/-- R110: `+`, its wrap, its fault (D5), and the law of 256. -/
def Obligations.IncAddsOneModulo256 : Prop :=
  encode .inc = 0x2B#8 ∧ decode 0x2B#8 = .inc ∧
  (∀ s : State, s.p.toNat < s.inst.tapeLen →
    ∃ t, exec .inc s = .next t ∧ t = { s with tape := t.tape, ip := s.ip + 1#17 } ∧
      (t.tape.read s.p.toNat).toNat = ((s.tape.read s.p.toNat).toNat + 1) % 256 ∧
      ∀ a, a ≠ s.p.toNat → t.tape.read a = s.tape.read a) ∧
  (∀ s : State, s.inst.tapeLen ≤ s.p.toNat → exec .inc s = .next
    { s with status := .faulted, fcause := .pointerOutOfTape, fpos := s.ip }) ∧
  (∀ s : State, s.p.toNat < s.inst.tapeLen →
    ∃ t, repeatExec 256 .inc s = .next t ∧ t = { s with tape := t.tape, ip := s.ip + 256#17 } ∧
      ∀ a, t.tape.read a = s.tape.read a)

/-- R111: `-`, its wrap and its fault (D5). The two last clauses, that `-` and `+` undo each other and the law of 256
for `-`, are inferences that the spec draws from R110 and R111 and marks as its own ("the source states the law for `+`
only"). -/
def Obligations.DecSubtractsOneModulo256 : Prop :=
  encode .dec = 0x2D#8 ∧ decode 0x2D#8 = .dec ∧
  (∀ s : State, s.p.toNat < s.inst.tapeLen →
    ∃ t, exec .dec s = .next t ∧ t = { s with tape := t.tape, ip := s.ip + 1#17 } ∧
      (t.tape.read s.p.toNat).toNat = ((s.tape.read s.p.toNat).toNat + 255) % 256 ∧
      ∀ a, a ≠ s.p.toNat → t.tape.read a = s.tape.read a) ∧
  (∀ s : State, s.inst.tapeLen ≤ s.p.toNat → exec .dec s = .next
    { s with status := .faulted, fcause := .pointerOutOfTape, fpos := s.ip }) ∧
  (∀ s : State, s.p.toNat < s.inst.tapeLen →
    ∃ t u v w, exec .inc s = .next t ∧ exec .dec t = .next u ∧ exec .dec s = .next v ∧ exec .inc v = .next w ∧
      ∀ a, u.tape.read a = s.tape.read a ∧ w.tape.read a = s.tape.read a) ∧
  (∀ s : State, s.p.toNat < s.inst.tapeLen →
    ∃ t, repeatExec 256 .dec s = .next t ∧ t = { s with tape := t.tape, ip := s.ip + 256#17 } ∧
      ∀ a, t.tape.read a = s.tape.read a)

/-- R114, which the spec derives from the instruction rules: the ALU as a block, on numbers. -/
def Obligations.AluBlock : Prop :=
  ∀ a : Byte, (aluResult .inc a).toNat = (a.toNat + 1) % 256 ∧ (aluResult .dec a).toNat = (a.toNat + 255) % 256 ∧
    aluResult .pass a = a ∧ (aluTest a = true ↔ a.toNat = 0)

/-! ## Input and output -/

/-- R120: `.` appends (and so emits) the current cell and changes nothing else; off the tape it appends nothing
(D5). `out` stands for both sinks (D12, log 16). -/
def Obligations.OutAppendsCell : Prop :=
  encode .output = 0x2E#8 ∧ decode 0x2E#8 = .output ∧
  (∀ s : State, s.p.toNat < s.inst.tapeLen → exec .output s = .next
    { s with out := s.out ++ [s.tape.read s.p.toNat], ip := s.ip + 1#17 }) ∧
  (∀ s : State, s.inst.tapeLen ≤ s.p.toNat → exec .output s = .next
    { s with status := .faulted, fcause := .pointerOutOfTape, fpos := s.ip })

/-- R122, R123: `,` takes the next pre-supplied byte, or else exactly one answer of the host (`EndOfData` gives 0), into
the current cell; off the tape it consumes nothing. The answers are the model's field `inAnswers` (log 2). -/
def Obligations.InStoresNextByte : Prop :=
  encode .input = 0x2C#8 ∧ decode 0x2C#8 = .input ∧
  (∀ (s : State) (b : Byte) (rest : List Byte), s.p.toNat < s.inst.tapeLen → s.inbuf = b :: rest →
    ∃ t, exec .input s = .next t ∧ t = { s with tape := t.tape, inbuf := rest, ip := s.ip + 1#17 } ∧
      t.tape.read s.p.toNat = b ∧ ∀ a, a ≠ s.p.toNat → t.tape.read a = s.tape.read a) ∧
  (∀ (s : State) (x : PollAnswer) (rest : List PollAnswer), s.p.toNat < s.inst.tapeLen → s.inbuf = [] →
    s.inAnswers = x :: rest →
    ∃ t, exec .input s = .next t ∧ t = { s with tape := t.tape, inAnswers := rest, ip := s.ip + 1#17 } ∧
      (∀ b, x = .byte b → t.tape.read s.p.toNat = b) ∧ (x = .endOfData → t.tape.read s.p.toNat = 0#8) ∧
      ∀ a, a ≠ s.p.toNat → t.tape.read a = s.tape.read a) ∧
  (∀ s : State, s.inst.tapeLen ≤ s.p.toNat → exec .input s = .next
    { s with status := .faulted, fcause := .pointerOutOfTape, fpos := s.ip })

/-- R31, R124: while the host has not answered, a pending poll holds the engine with nothing changed; one answer ends
the hold, and the next step stores it. The model's form of the hold is log 2, of the answer log 14. -/
def Obligations.AnswerEndsTheHold : Prop :=
  ∀ s : State, pollPending s = true →
    step s = .next s ∧
    ∀ x : PollAnswer, ∃ t u, hostStep (.answer x) s = .next t ∧ step t = .next u ∧
      u = { s with tape := u.tape, ip := s.ip + 1#17 } ∧
      (∀ b, x = .byte b → u.tape.read s.p.toNat = b) ∧ (x = .endOfData → u.tape.read s.p.toNat = 0#8) ∧
      ∀ a, a ≠ s.p.toNat → u.tape.read a = s.tape.read a

/-- R195, R31: an answer that no poll asked for does nothing (the model's reading, log 14). -/
def Obligations.UnaskedAnswerDoesNothing : Prop :=
  ∀ (s : State) (x : PollAnswer), pollPending s = false → hostStep (.answer x) s = .next s

/-- R121, R39 (f), R28: output comes from `.` alone, one byte a step, at the end; input is taken by `,` alone, from the
front, one element a step. -/
def Obligations.OnlyDotOutputsOnlyCommaReads : Prop :=
  ∀ (i : Instr) (s t : State), exec i s = .next t →
    (t.out = s.out ∨ i = .output ∧ t.out = s.out ++ [s.tape.read s.p.toNat]) ∧
    (t.inbuf = s.inbuf ∧ t.inAnswers = s.inAnswers ∨
      i = .input ∧ (∃ b, s.inbuf = b :: t.inbuf) ∧ t.inAnswers = s.inAnswers ∨
      i = .input ∧ s.inbuf = [] ∧ t.inbuf = [] ∧ ∃ x, s.inAnswers = x :: t.inAnswers)

/-! ## Loops -/

/-- R130, R131: `[`, its five outcomes, each under the tests that come before it (the fault off the tape is D5, the full
stack D6); at address 0 the cell is zero. -/
def Obligations.OpenSkipsOrEnters : Prop :=
  encode .openLoop = 0x5B#8 ∧ decode 0x5B#8 = .openLoop ∧
  (∀ s : State, s.inst.tapeLen ≤ s.p.toNat → exec .openLoop s = .next
    { s with status := .faulted, fcause := .pointerOutOfTape, fpos := s.ip }) ∧
  (∀ (s : State) (m : IAddr), s.p.toNat < s.inst.tapeLen → s.tape.read s.p.toNat = 0#8 →
    matchClose s s.ip = some m → exec .openLoop s = .next { s with ip := m + 1#17 }) ∧
  (∀ s : State, s.p.toNat < s.inst.tapeLen → s.tape.read s.p.toNat = 0#8 → matchClose s s.ip = none →
    exec .openLoop s = .next { s with status := .faulted, fcause := .unmatchedOpenBracket, fpos := s.ip }) ∧
  (∀ s : State, s.p.toNat < s.inst.tapeLen → s.tape.read s.p.toNat ≠ 0#8 → s.ls.length < s.inst.lsDepth →
    exec .openLoop s = .next { s with ls := s.ip :: s.ls, ip := s.ip + 1#17 }) ∧
  (∀ s : State, s.p.toNat < s.inst.tapeLen → s.tape.read s.p.toNat ≠ 0#8 → s.ls.length = s.inst.lsDepth →
    exec .openLoop s = .next { s with status := .faulted, fcause := .loopStackOverflow, fpos := s.ip }) ∧
  (∀ s : State, Inv s → s.ip = 0 → s.p = 0 ∧ s.tape.read 0 = 0#8)

/-- R136: `]` pops and jumps back to the popped address, or is a silent no-op; it reads no cell and never faults. The
one write `ip <- k` in place of the source's two phases is the spec's decision D7. -/
def Obligations.CloseReturnsToOpen : Prop :=
  encode .closeLoop = 0x5D#8 ∧ decode 0x5D#8 = .closeLoop ∧
  (∀ s : State, s.ls = [] → exec .closeLoop s = .next { s with ip := s.ip + 1#17 }) ∧
  (∀ (s : State) (k : IAddr) (rest : List IAddr), s.ls = k :: rest →
    exec .closeLoop s = .next { s with ls := rest, ip := k }) ∧
  (∀ s : State, Inv s → ∀ k rest, s.ls = k :: rest → fetch s k = opOpen ∧ k.toNat < s.ip.toNat)

/-- R132, independently of the scan: the match of `[` at `i` is the first address by which the words after `i` hold one
more `]` than `[`, and it holds that `]`. -/
def Obligations.MatchCloseIsFirstExcess : Prop :=
  ∀ (s : State) (i : IAddr),
    (∀ m : IAddr, matchClose s i = some m ↔
      i.toNat < m.toNat ∧ m.toNat < s.progLen.toNat ∧
      countWord s opClose (i.toNat + 1) (m.toNat - i.toNat) =
        countWord s opOpen (i.toNat + 1) (m.toNat - i.toNat) + 1 ∧
      ∀ n, n < m.toNat - i.toNat →
        countWord s opClose (i.toNat + 1) n ≤ countWord s opOpen (i.toNat + 1) n) ∧
    (matchClose s i = none ↔ ∀ n, n ≤ s.progLen.toNat - (i.toNat + 1) →
      countWord s opClose (i.toNat + 1) n ≤ countWord s opOpen (i.toNat + 1) n)

/-- R133, which the spec derives from R132: `MatchClose` depends on nothing but the program's words after `i`. -/
def Obligations.MatchCloseOnlyReadsProgram : Prop :=
  ∀ (s t : State) (i : IAddr), s.progLen = t.progLen →
    (∀ a, i.toNat < a → a < s.progLen.toNat → s.imem.read a = t.imem.read a) → matchClose s i = matchClose t i

/-! ## Every other word -/

/-- R150: a NOP is one of 248 words and changes nothing but `ip`. -/
def Obligations.NopOnlyAdvances : Prop :=
  (∀ w : Byte, decode w = .nop w ↔
    w ∉ [0x2B#8, 0x2C#8, 0x2D#8, 0x2E#8, 0x3C#8, 0x3E#8, 0x5B#8, 0x5D#8]) ∧
  ((List.range 256).filter fun n => decide (decode (BitVec.ofNat 8 n) = .nop (BitVec.ofNat 8 n))).length = 248 ∧
  ∀ (w : Byte) (s : State), exec (.nop w) s = .next { s with ip := s.ip + 1#17 }

/-! ## Frames -/

/-- What each instruction leaves unchanged when exec gives a next state. The tape's bytes are read one by one. -/
def Obligations.EveryInstructionFrame : Prop :=
  ∀ (i : Instr) (s t : State), exec i s = .next t →
    (i ≠ .right → i ≠ .left → t.p = s.p) ∧
    (i ≠ .openLoop → i ≠ .closeLoop → t.ls = s.ls) ∧
    (i ≠ .output → t.out = s.out) ∧
    (i ≠ .input → t.inbuf = s.inbuf ∧ t.inAnswers = s.inAnswers) ∧
    (i ≠ .inc → i ≠ .dec → i ≠ .input → ∀ a, t.tape.read a = s.tape.read a) ∧
    (∀ a, a ≠ (effectiveAddr s).toNat → t.tape.read a = s.tape.read a) ∧
    (accessesTape i = false → t.status = s.status ∧ t.fcause = s.fcause ∧ t.fpos = s.fpos) ∧
    (s.p.toNat < s.inst.tapeLen → i ≠ .openLoop →
      t.status = s.status ∧ t.fcause = s.fcause ∧ t.fpos = s.fpos) ∧
    (∀ a, t.imem.read a = s.imem.read a) ∧ t.progLen = s.progLen ∧ t.inst = s.inst ∧ t.resetHeld = s.resetHeld

/-! ## Memory -/

/-- R54, R55: the access primitives, off the tape (D5) and on it; `none` is the model's form of the fault they raise. -/
def Obligations.MemReadAndMemWrite : Prop :=
  ∀ (s : State) (a : Ptr),
    (memRead s a = none ↔ s.inst.tapeLen ≤ a.toNat) ∧
    (a.toNat < s.inst.tapeLen → memRead s a = some (s.tape.read a.toNat)) ∧
    ∀ v : Byte, (memWrite a v s = none ↔ s.inst.tapeLen ≤ a.toNat) ∧
      ∀ t, memWrite a v s = some t → t = { s with tape := t.tape } ∧ memRead t a = some v ∧
        ∀ b : Ptr, b ≠ a → memRead t b = memRead s b

/-! ## Faults -/

/-- R166 (D8): `raise` is the fault record and nothing else; a step that ends Faulted is a `raise` with a code from 1 to 3;
RESULT then shows status 2, the code and the position. -/
def Obligations.FaultEntryIsPrecise : Prop :=
  (∀ (c : FaultCause) (s : State),
    raise c s = .next { s with status := .faulted, fcause := c, fpos := s.ip }) ∧
  ∀ s t : State, s.status ≠ .faulted → step s = .next t → t.status = .faulted →
    ∃ c, c ≠ .noFault ∧ t = { s with status := .faulted, fcause := c, fpos := s.ip } ∧
      (resultPort t).status = 2#2 ∧ 1 ≤ (resultPort t).fcause.toNat ∧ (resultPort t).fpos = s.ip ∧
      (resultPort t).out = s.out

/-- R160 to R163, R165, R135: exactly when each fault is raised, with its code. -/
def Obligations.FaultsExactly : Prop :=
  ∀ (i : Instr) (s t : State), s.status = .running → exec i s = .next t →
    (t.status = .faulted ∧ causeCode t.fcause = 1#2 ↔
      i = .openLoop ∧ s.p.toNat < s.inst.tapeLen ∧ s.tape.read s.p.toNat = 0#8 ∧ matchClose s s.ip = none) ∧
    (t.status = .faulted ∧ causeCode t.fcause = 2#2 ↔ accessesTape i = true ∧ s.inst.tapeLen ≤ s.p.toNat) ∧
    (t.status = .faulted ∧ causeCode t.fcause = 3#2 ↔
      i = .openLoop ∧ s.p.toNat < s.inst.tapeLen ∧ s.tape.read s.p.toNat ≠ 0#8 ∧
        s.inst.lsDepth ≤ s.ls.length) ∧
    (t.status = .faulted → causeCode t.fcause ≠ 0#2)

/-! ## The step -/

/-- R91: when the word at `ip` decodes to `i`, the step is `exec i`, at the same state, with nothing around it. -/
def Obligations.StepRunsFetchedWord : Prop :=
  ∀ s : State, s.resetHeld = false → s.status = .running → s.ip.toNat < s.progLen.toNat →
    (decode (s.imem.read s.ip.toNat)).wf = true ∧ step s = exec (decode (s.imem.read s.ip.toNat)) s

/-- The model's `withFetchWord` (log 5) places a word where the very next step fetches it, and that step runs what the
decoder reads from it. -/
def Obligations.PlacedWordRunsNext : Prop :=
  ∀ (s : State) (w : Nat), s.ip.toNat + 1 < 2 ^ 17 →
    decodeTableWord 8 w = some (decode (BitVec.ofNat 8 w)) ∧
    step (s.withFetchWord 8 w) = exec (decode (BitVec.ofNat 8 w)) (s.withFetchWord 8 w)

/-- R92 (D9): the halting step; in reachable states `ip = prog_len` there; a program of zero instructions halts at once. -/
def Obligations.HaltIsAStepOfItsOwn : Prop :=
  (∀ s : State, s.resetHeld = false → s.status = .running → s.progLen.toNat ≤ s.ip.toNat →
    step s = .next { s with status := .halted }) ∧
  (∀ s : State, Inv s → s.progLen.toNat ≤ s.ip.toNat → s.ip = s.progLen) ∧
  (∀ (s : State) (ms : List Byte), s.progLen = 0 →
    step (releaseReset (loadInput ms (applyReset s))) =
      .next { releaseReset (loadInput ms (applyReset s)) with status := .halted })

/-- R96, R190: in a terminal status, and under reset, no step changes anything; no host action but reset leaves a
terminal status. That `step` answers the same state there is the model's form (log 1). -/
def Obligations.TerminalUntilReset : Prop :=
  (∀ s : State, s.status = .halted ∨ s.status = .faulted ∨ s.resetHeld = true → step s = .next s) ∧
  ∀ (s t : State) (a : HostAction), ended s = true → hostStep a s = .next t → a ≠ .applyReset →
    t.status = s.status ∧ t.fcause = s.fcause ∧ t.fpos = s.fpos ∧ t.out = s.out

/-- R90, R170: for every state a step has exactly one outcome, a next state. In a terminal status and under reset, where
the spec has no step, that next state is the model's form (log 1), as it is in a held `,` (log 2); from Running it ends Running, Halted (by
the halt alone) or Faulted (by an instruction that accesses the tape alone). -/
def Obligations.StepAlwaysHasAnOutcome : Prop :=
  ∀ s : State, ∃ t, step s = .next t ∧
    (s.status = .running → s.resetHeld = false →
      (t.status = .halted ↔ s.progLen.toNat ≤ s.ip.toNat) ∧
      (t.status = .faulted → s.ip.toNat < s.progLen.toNat ∧ accessesTape (nextInstr s) = true))

/-- R94: the table of the next `ip`, for every instruction and every state. -/
def Obligations.AdvanceTable : Prop :=
  ∀ (i : Instr) (s t : State), s.status = .running → exec i s = .next t →
    (t.status = .faulted → t.ip = s.ip) ∧
    (t.status ≠ .faulted →
      (i ≠ .openLoop → i ≠ .closeLoop → (i = .input → s.inbuf ≠ [] ∨ s.inAnswers ≠ []) → t.ip = s.ip + 1#17) ∧
      (i = .openLoop → s.tape.read s.p.toNat ≠ 0#8 → t.ip = s.ip + 1#17) ∧
      (i = .openLoop → s.tape.read s.p.toNat = 0#8 → ∃ m, matchClose s s.ip = some m ∧ t.ip = m + 1#17) ∧
      (i = .closeLoop → s.ls = [] → t.ip = s.ip + 1#17) ∧
      (i = .closeLoop → ∀ k rest, s.ls = k :: rest → t.ip = k)) ∧
    (Inv s → s.ip.toNat < s.progLen.toNat → (s.ip + 1#17).toNat = s.ip.toNat + 1 ∧
      ∀ m, matchClose s s.ip = some m → (m + 1#17).toNat = m.toNat + 1) ∧
    (s.resetHeld = false → s.progLen.toNat ≤ s.ip.toNat → ∃ u, step s = .next u ∧ u.ip = s.ip)

/-- R25, R63: no step and, outside reset, no host action changes the program or the instance. -/
def Obligations.ProgramIsImmutable : Prop :=
  (∀ s t : State, step s = .next t → t.imem = s.imem ∧ t.progLen = s.progLen ∧ t.inst = s.inst) ∧
  ∀ (s t : State) (a : HostAction), s.resetHeld = false → hostStep a s = .next t →
    t.imem = s.imem ∧ t.progLen = s.progLen ∧ t.inst = s.inst

/-- R25, R133: words at addresses `>= prog_len` are irrelevant: replacing them changes no step. -/
def Obligations.WordsPastProgramAreIrrelevant : Prop :=
  ∀ (s t : State) (m : Memory), (∀ a, a < s.progLen.toNat → m.read a = s.imem.read a) → step s = .next t →
    step { s with imem := m } = .next { t with imem := m }

/-- R122, R37: only `,` depends on the input: every other instruction does the same whatever the input is. -/
def Obligations.InputOnlyReachesComma : Prop :=
  ∀ (i : Instr) (s t : State) (bs : List Byte) (xs : List PollAnswer), i ≠ .input → exec i s = .next t →
    exec i { s with inbuf := bs, inAnswers := xs } = .next { t with inbuf := bs, inAnswers := xs }

/-! ## Invariants -/

/-- The invariant holds right after reset, for every instance (R38), and at `State.reset`. -/
def Obligations.ResetMeetsInvariant : Prop :=
  Inv State.reset ∧ ∀ c : Config.Params, c.wf = true → Inv { State.reset with inst := c }

/-- R39, R138: every step of the engine keeps the invariant, from every state that meets it. -/
def Obligations.StepKeepsInvariant : Prop :=
  ∀ s t : State, Inv s → step s = .next t → Inv t

/-- Every action of the host keeps the invariant (R33, R191, R195). -/
def Obligations.HostKeepsInvariant : Prop :=
  ∀ (s t : State) (a : HostAction), Inv s → hostStep a s = .next t → Inv t

/-- R39 (a) to (g), which the spec derives from its other rules, in every reachable state: what `ResetMeetsInvariant`,
`StepKeepsInvariant` and `HostKeepsInvariant` give together. -/
def Obligations.ReachableStateFacts : Prop :=
  ∀ s : State, Reachable s →
    s.p.toNat ≤ s.inst.tapeLen ∧ s.ip.toNat ≤ s.progLen.toNat ∧
    s.ls.reverse.Pairwise (fun lower upper => lower.toNat < upper.toNat) ∧
    (∀ e ∈ s.ls, 1 ≤ e.toNat ∧ e.toNat < s.progLen.toNat ∧ s.imem.read e.toNat = opOpen ∧
      (s.status = .running → e.toNat < s.ip.toNat)) ∧
    s.ls.length ≤ countWord s opOpen 0 s.progLen.toNat ∧
    (s.status = .faulted ↔ s.fcause ≠ .noFault) ∧
    (∀ t, step s = .next t → s.out <+: t.out ∧ t.inbuf <:+ s.inbuf) ∧
    ∀ a, (s.tape.read a).toNat ≤ 255

/-- R139, which the spec derives from R138, and which follows from the step lemma `StepKeepsInvariant`: the depth is below IMEM_DEPTH, and with LS_DEPTH = IMEM_DEPTH no step overflows the loop stack. -/
def Obligations.LoopStackNeverOverflows : Prop :=
  ∀ s : State, Reachable s →
    s.ls.length ≤ countWord s opOpen 0 s.progLen.toNat ∧
    (s.progLen ≠ 0 → countWord s opOpen 1 (s.progLen.toNat - 1) ≤ s.progLen.toNat - 1 ∧
      s.ls.length ≤ countWord s opOpen 1 (s.progLen.toNat - 1)) ∧
    s.ls.length < s.inst.imemDepth ∧
    (s.inst.lsDepth = s.inst.imemDepth → s.fcause ≠ .loopStackOverflow)

/-- R140, which the spec derives from R130 to R138: for a balanced program every step keeps the loop stack equal to the brackets that enclose `ip`. -/
def Obligations.BalancedLoopsKeepEnclosingStack : Prop :=
  ∀ s t : State, Inv s → BalancedProgram s → StackEncloses s → step s = .next t → StackEncloses t ∧ BalancedProgram t

/-- R140, what the spec derives from it: a `]` pops its own partner, no `[` is found unmatched, and a normal halt leaves the loop stack
empty. -/
def Obligations.BalancedBracketsPairUp : Prop :=
  ∀ s : State, Inv s → BalancedProgram s → StackEncloses s →
    (s.ip.toNat < s.progLen.toNat → nextInstr s = .closeLoop →
      ∃ k rest, s.ls = k :: rest ∧ holdsWord s k.toNat opOpen ∧ pairs s k.toNat s.ip.toNat) ∧
    (∀ t, s.status = .running → step s = .next t → t.fcause ≠ .unmatchedOpenBracket) ∧
    (s.status = .halted → s.ls = [])

/-- R140, which the spec derives from R130 to R138: in every reachable state of a balanced program the loop stack is
exactly the brackets that enclose `ip`. The step lemma is `BalancedLoopsKeepEnclosingStack`. -/
def Obligations.ReachableBalancedStack : Prop :=
  ∀ s : State, Reachable s → BalancedProgram s → StackEncloses s

/-! ## Reset and the host -/

/-- R191 (D10): what applying reset does to each piece of state, in any status. The clauses beside it: no step under reset
is R190 in the form of log 1; loading the input under reset and releasing it is R193, by the model's field `resetHeld`
(log 4). -/
def Obligations.ResetClearsAllButProgram : Prop :=
  ∀ s : State, ∃ t, hostStep .applyReset s = .next t ∧
    t.p = 0 ∧ t.ip = 0 ∧ t.status = .running ∧ t.fcause = .noFault ∧ t.fpos = 0 ∧
    (∀ a, t.tape.read a = 0#8) ∧ t.ls = [] ∧ t.out = [] ∧ t.inbuf = [] ∧
    t.imem = s.imem ∧ t.progLen = s.progLen ∧ t.inst = s.inst ∧ step t = .next t ∧
    (∀ bs : List Byte, ∃ u, hostStep (.loadInput bs) t = .next u ∧ u = { t with inbuf := bs }) ∧
    ∃ u, hostStep .releaseReset t = .next u ∧ u.resetHeld = false ∧ { u with resetHeld := true } = t

/-- R33, D18: LOAD works under reset alone (the reading of log 4), writes `imem[0 .. n-1]`, `prog_len` and `inbuf`, and refuses a program
longer than IMEM_DEPTH. -/
def Obligations.LoadOnlyUnderReset : Prop :=
  ∀ (s : State) (ws bs : List Byte), s.inst.wf = true →
    (s.resetHeld = false → hostStep (.loadProgram ws) s = .next s ∧ hostStep (.loadInput bs) s = .next s) ∧
    (s.resetHeld = true → s.inst.imemDepth < ws.length →
      hostStep (.loadProgram ws) s = .refused .programTooLong) ∧
    (s.resetHeld = true → hostStep (.loadInput bs) s = .next { s with inbuf := bs }) ∧
    (s.resetHeld = true → ws.length ≤ s.inst.imemDepth →
      ∃ t, hostStep (.loadProgram ws) s = .next t ∧ t = { s with imem := t.imem, progLen := t.progLen } ∧
        t.progLen.toNat = ws.length ∧ (∀ a, (h : a < ws.length) → t.imem.read a = ws[a]) ∧
        ∀ a, ws.length ≤ a → t.imem.read a = s.imem.read a)

/-- R193, R38, R78: booting strips, checks, loads and releases: every piece of state then has its reset value and the
program is the stripped text; a text too long never runs. -/
def Obligations.BootGivesResetState : Prop :=
  ∀ (isSpace : Byte → Bool) (text input : List Byte) (s : State), s.inst.wf = true →
    (s.inst.imemDepth < (strip isSpace text).length → boot isSpace text input s = .refused .programTooLong) ∧
    ((strip isSpace text).length ≤ s.inst.imemDepth →
      ∃ t, boot isSpace text input s = .next t ∧
        t = { State.reset with imem := t.imem, progLen := t.progLen, inbuf := input, inst := s.inst } ∧
        t.progLen.toNat = (strip isSpace text).length ∧
        ∀ a, (h : a < (strip isSpace text).length) → programWord t a = some (strip isSpace text)[a])

/-- R197: `Trim` takes away a prefix and a suffix of whitespace bytes, and what is left, if anything, begins and ends
with a byte that is none, for every set of whitespace bytes (D2, D12); the host applies it to `out` of an ended run. -/
def Obligations.TrimTakesBothEnds : Prop :=
  ∀ (isSpace : Byte → Bool) (s : List Byte),
    (∃ pre post, s = pre ++ trim isSpace s ++ post ∧ (∀ b ∈ pre, isSpace b = true) ∧
      ∀ b ∈ post, isSpace b = true) ∧
    (∀ b, (trim isSpace s).head? = some b → isSpace b = false) ∧
    (∀ b, (trim isSpace s).getLast? = some b → isSpace b = false) ∧
    ((∀ b ∈ s, isSpace b = true) → trim isSpace s = []) ∧
    ∀ m : State, (ended m = true → returnedText isSpace m = some (trim isSpace m.out)) ∧
      (ended m = false → returnedText isSpace m = none)

/-- R29, R30, R34: what RESULT shows, in the codes of the two tables. -/
def Obligations.ResultPortCodes : Prop :=
  ∀ s : State,
    (resultPort s).status.toNat = (match s.status with | .running => 0 | .halted => 1 | .faulted => 2) ∧
    (resultPort s).fcause.toNat = (match s.fcause with
      | .noFault => 0 | .unmatchedOpenBracket => 1 | .pointerOutOfTape => 2 | .loopStackOverflow => 3) ∧
    (resultPort s).fpos = s.fpos ∧ (resultPort s).out = s.out

/-- R37, R198, R200: the returned text of a run is determined by the program text, the input, the host's answers and the
instance: no two ends of one run differ. -/
def Obligations.RunResultIsDetermined : Prop :=
  ∀ (isSpace : Byte → Bool) (text input : List Byte) (answers : List PollAnswer) (s s' : State)
    (r r' : List Byte), s.inst = s'.inst →
    Executes isSpace text input answers s r → Executes isSpace text input answers s' r' → r = r'

/-! ## Balanced loops as while-loops -/

/-- R140, what the spec derives from it: in a balanced program the body of `[ body ]` runs again exactly while the cell
under the pointer is non-zero when the `[` tests it. A `[` enters its body or goes past its partner; a `]` goes back to
its `[` in one step, and the next step enters the body again, with the loop stack as it was, or leaves the loop. Off the
tape the `[` faults (D5), and entering needs room on the loop stack (D6), so both are premises. -/
def Obligations.BalancedBodyRunsWhileNonZero : Prop :=
  ∀ s : State, Inv s → BalancedProgram s → StackEncloses s → s.status = .running → s.resetHeld = false →
    s.ip.toNat < s.progLen.toNat → s.p.toNat < s.inst.tapeLen →
    (nextInstr s = .openLoop → s.tape.read s.p.toNat ≠ 0#8 → s.ls.length < s.inst.lsDepth →
      step s = .next { s with ls := s.ip :: s.ls, ip := s.ip + 1#17 }) ∧
    (nextInstr s = .openLoop → s.tape.read s.p.toNat = 0#8 →
      ∃ c : IAddr, pairs s s.ip.toNat c.toNat ∧ step s = .next { s with ip := c + 1#17 }) ∧
    (nextInstr s = .closeLoop →
      ∃ k rest t, s.ls = k :: rest ∧ pairs s k.toNat s.ip.toNat ∧
        step s = .next t ∧ t = { s with ls := rest, ip := k } ∧
        (s.tape.read s.p.toNat ≠ 0#8 → step t = .next { s with ip := k + 1#17 }) ∧
        (s.tape.read s.p.toNat = 0#8 → step t = .next { s with ls := rest, ip := s.ip + 1#17 }))
end

