-- ==== Sys2Proof/Laws/Memory.lean ====
section
/-! SUPPORT. The laws of the byte memory: a read after a write, and that every operation keeps the canonical form and
the bound on addresses. -/

namespace Sys2Proof.Machine

@[simp] theorem Memory.read_nil (a : Nat) : Memory.read [] a = Memory.unlisted := rfl

@[simp] theorem Memory.read_cons (b : Nat) (v : Byte) (m : Memory) (a : Nat) :
    Memory.read ((b, v) :: m) a = if b = a then v else Memory.read m a := rfl

theorem Memory.read_erase (m : Memory) (a c : Nat) :
    Memory.read (Memory.erase m a) c = if c = a then Memory.unlisted else Memory.read m c := by
  induction m with
  | nil => simp [Memory.erase]
  | cons x m ih =>
    obtain ⟨b, v⟩ := x
    simp only [Memory.erase] at ih ⊢
    by_cases hb : b = a
    · subst hb
      simp only [List.filter_cons, bne_self_eq_false, Bool.false_eq_true, if_false, ih, Memory.read_cons]
      split <;> simp_all [eq_comm]
    · simp only [List.filter_cons, bne_iff_ne, ne_eq, hb, not_false_eq_true, if_true, Memory.read_cons, ih]
      split
      · subst_vars; simp [hb]
      · rfl

theorem Memory.read_insert (m : Memory) (a c : Nat) (v : Byte) :
    Memory.read (Memory.insert m a v) c = if c = a then v else Memory.read m c := by
  induction m with
  | nil => simp [Memory.insert, eq_comm]
  | cons x m ih =>
    obtain ⟨b, w⟩ := x
    simp only [Memory.insert]
    split
    · simp [eq_comm]
    · split
      · next hab =>
        subst hab
        by_cases hc : c = a
        · subst hc; simp
        · rw [Memory.read_cons, Memory.read_cons, if_neg (Ne.symm hc), if_neg (Ne.symm hc), if_neg hc]
      · simp only [Memory.read_cons, ih]; split
        · subst_vars; rw [if_neg]; omega
        · rfl

/-- The one read-over-write law: the written address reads as written, every other as before. -/
theorem Memory.read_write (m : Memory) (a c : Nat) (v : Byte) :
    Memory.read (Memory.write m a v) c = if c = a then v else Memory.read m c := by
  unfold Memory.write
  split
  · subst_vars; exact Memory.read_erase m a c
  · exact Memory.read_insert m a c v

theorem Memory.read_writeFrom (ws : List Byte) (m : Memory) (base c : Nat) :
    Memory.read (Memory.writeFrom m base ws) c =
      if h : base ≤ c ∧ c - base < ws.length then ws[c - base]'h.2 else Memory.read m c := by
  induction ws generalizing m base with
  | nil => simp [Memory.writeFrom]
  | cons w ws ih =>
    simp only [Memory.writeFrom, ih, Memory.read_write, List.length_cons]
    by_cases hc : c = base
    · subst hc; simp
    · by_cases hb : base ≤ c
      · obtain ⟨k, rfl⟩ : ∃ k, c = base + 1 + k := ⟨c - (base + 1), by omega⟩
        have h1 : base + 1 + k - base = k + 1 := by omega
        have h2 : base + 1 + k - (base + 1) = k := by omega
        simp only [h1, h2, List.getElem_cons_succ]
        by_cases hk : k < ws.length
        · rw [dif_pos ⟨by omega, hk⟩, dif_pos ⟨by omega, by omega⟩]
        · rw [dif_neg (by omega), dif_neg (by omega), if_neg hc]
      · rw [dif_neg (by omega), dif_neg (by omega), if_neg hc]

theorem Memory.wf_cons (a : Nat) (v : Byte) (m : Memory) :
    Memory.wf ((a, v) :: m) = true ↔
      v ≠ Memory.unlisted ∧ (∀ c ∈ m, a < c.1) ∧ Memory.wf m = true := by
  simp [Memory.wf, List.all_eq_true, and_assoc]

theorem Memory.mem_erase (m : Memory) (a : Nat) (c : Host.Cell) (h : c ∈ Memory.erase m a) : c ∈ m :=
  (List.mem_filter.mp h).1

theorem Memory.mem_insert (m : Memory) (a : Nat) (v : Byte) (c : Host.Cell) (h : c ∈ Memory.insert m a v) :
    c = (a, v) ∨ c ∈ m := by
  induction m with
  | nil => simpa [Memory.insert] using h
  | cons x m ih =>
    obtain ⟨b, w⟩ := x
    simp only [Memory.insert] at h
    split at h
    · simpa using h
    · split at h
      · rcases List.mem_cons.mp h with h | h
        · exact .inl h
        · exact .inr (.tail _ h)
      · rcases List.mem_cons.mp h with h | h
        · exact .inr (h ▸ .head _)
        · exact (ih h).imp_right (.tail _)

theorem Memory.wf_erase (m : Memory) (a : Nat) (h : m.wf = true) : (Memory.erase m a).wf = true := by
  induction m with
  | nil => exact h
  | cons x m ih =>
    obtain ⟨b, v⟩ := x
    obtain ⟨hv, hlt, hm⟩ := (Memory.wf_cons b v m).mp h
    by_cases hb : b = a
    · have he : Memory.erase ((b, v) :: m) a = Memory.erase m a := by simp [Memory.erase, hb]
      rw [he]; exact ih hm
    · have he : Memory.erase ((b, v) :: m) a = (b, v) :: Memory.erase m a := by
        simp [Memory.erase, hb]
      rw [he]
      exact (Memory.wf_cons _ _ _).mpr ⟨hv, fun c hc => hlt c (Memory.mem_erase m a c hc), ih hm⟩

theorem Memory.wf_insert (m : Memory) (a : Nat) (v : Byte) (hv : v ≠ Memory.unlisted) (h : m.wf = true) :
    (Memory.insert m a v).wf = true := by
  induction m with
  | nil => simp [Memory.insert, Memory.wf, hv]
  | cons x m ih =>
    obtain ⟨b, w⟩ := x
    obtain ⟨hw, hlt, hm⟩ := (Memory.wf_cons b w m).mp h
    simp only [Memory.insert]
    split
    · next hab =>
      refine (Memory.wf_cons _ _ _).mpr ⟨hv, fun c hc => ?_, h⟩
      rcases List.mem_cons.mp hc with rfl | hc
      · exact hab
      · exact Nat.lt_trans hab (hlt c hc)
    · split
      · next hab => subst hab; exact (Memory.wf_cons _ _ _).mpr ⟨hv, hlt, hm⟩
      · refine (Memory.wf_cons _ _ _).mpr ⟨hw, fun c hc => ?_, ih hm⟩
        rcases Memory.mem_insert m a v c hc with rfl | hc
        · show b < a; omega
        · exact hlt c hc

/-- Every write keeps the canonical form. -/
theorem Memory.wf_write (m : Memory) (a : Nat) (v : Byte) (h : m.wf = true) : (Memory.write m a v).wf = true := by
  unfold Memory.write
  split
  · exact Memory.wf_erase m a h
  · next hv => exact Memory.wf_insert m a v hv h

theorem Memory.wf_writeFrom (ws : List Byte) (m : Memory) (base : Nat) (h : m.wf = true) :
    (Memory.writeFrom m base ws).wf = true := by
  induction ws generalizing m base with
  | nil => exact h
  | cons w ws ih => exact ih _ _ (Memory.wf_write m base w h)

theorem Memory.below_iff (m : Memory) (n : Nat) : m.below n = true ↔ ∀ c ∈ m, c.1 < n := by
  simp [Memory.below, List.all_eq_true]

theorem Memory.below_write (m : Memory) (a n : Nat) (v : Byte) (ha : a < n) (h : m.below n = true) :
    (Memory.write m a v).below n = true := by
  rw [Memory.below_iff] at h ⊢
  intro c hc
  unfold Memory.write at hc
  split at hc
  · exact h c (Memory.mem_erase m a c hc)
  · rcases Memory.mem_insert m a v c hc with rfl | hc
    · exact ha
    · exact h c hc

theorem Memory.below_writeFrom (ws : List Byte) (m : Memory) (base n : Nat) (hb : base + ws.length ≤ n)
    (h : m.below n = true) : (Memory.writeFrom m base ws).below n = true := by
  induction ws generalizing m base with
  | nil => exact h
  | cons w ws ih =>
    simp only [List.length_cons] at hb
    exact ih _ _ (by omega) (Memory.below_write m base n w (by omega) h)

/-- Two canonical memories that read alike everywhere are the same data. -/
theorem Memory.ext_of_wf (m n : Memory) (hm : m.wf = true) (hn : n.wf = true)
    (h : ∀ a, Memory.read m a = Memory.read n a) : m = n := by
  have absent : ∀ (l : Memory) (a : Nat), (∀ c ∈ l, a < c.1) → Memory.read l a = Memory.unlisted := by
    intro l a hl
    induction l with
    | nil => rfl
    | cons x l ih =>
      obtain ⟨b, w⟩ := x
      have hb : a < b := hl (b, w) (.head _)
      rw [Memory.read_cons, if_neg (by omega)]
      exact ih fun c hc => hl c (.tail _ hc)
  induction m generalizing n with
  | nil =>
    cases n with
    | nil => rfl
    | cons y n =>
      obtain ⟨b, w⟩ := y
      have := h b
      simp only [Memory.read_nil, Memory.read_cons, if_true] at this
      exact absurd this.symm ((Memory.wf_cons b w n).mp hn).1
  | cons x m ih =>
    obtain ⟨a, v⟩ := x
    obtain ⟨hv, hlt, hm'⟩ := (Memory.wf_cons a v m).mp hm
    cases n with
    | nil =>
      have := h a
      simp only [Memory.read_nil, Memory.read_cons, if_true] at this
      exact absurd this hv
    | cons y n =>
      obtain ⟨b, w⟩ := y
      obtain ⟨hw, hlt', hn'⟩ := (Memory.wf_cons b w n).mp hn
      have ha := h a
      have hb := h b
      simp only [Memory.read_cons, if_true] at ha hb
      rcases Nat.lt_trichotomy a b with hab | hab | hab
      · rw [if_neg (by omega), absent n a fun c hc => Nat.lt_trans hab (hlt' c hc)] at ha
        exact absurd ha hv
      · subst hab
        simp only [if_true] at ha
        subst ha
        congr 1
        refine ih n hm' hn' fun c => ?_
        have hc := h c
        simp only [Memory.read_cons] at hc
        split at hc
        · subst_vars; rw [absent m _ hlt, absent n _ hlt']
        · exact hc
      · rw [if_neg (by omega), absent m b fun c hc => Nat.lt_trans hab (hlt c hc)] at hb
        exact absurd hb.symm hw

end Sys2Proof.Machine
end

