-- ==== Sys2Proof/Laws/State.lean ====
section
/-! SUPPORT. One lemma per field per update of State, each true by rfl, so that no proof unfolds a record update. -/

namespace Sys2Proof.Machine

@[simp] theorem setP_p (v : Ptr) (s : State) : (setP v s).p = v := rfl
@[simp] theorem setP_ip (v : Ptr) (s : State) : (setP v s).ip = s.ip := rfl
@[simp] theorem setP_tape (v : Ptr) (s : State) : (setP v s).tape = s.tape := rfl
@[simp] theorem setP_imem (v : Ptr) (s : State) : (setP v s).imem = s.imem := rfl
@[simp] theorem setP_progLen (v : Ptr) (s : State) : (setP v s).progLen = s.progLen := rfl
@[simp] theorem setP_ls (v : Ptr) (s : State) : (setP v s).ls = s.ls := rfl
@[simp] theorem setP_out (v : Ptr) (s : State) : (setP v s).out = s.out := rfl
@[simp] theorem setP_inbuf (v : Ptr) (s : State) : (setP v s).inbuf = s.inbuf := rfl
@[simp] theorem setP_status (v : Ptr) (s : State) : (setP v s).status = s.status := rfl
@[simp] theorem setP_fcause (v : Ptr) (s : State) : (setP v s).fcause = s.fcause := rfl
@[simp] theorem setP_fpos (v : Ptr) (s : State) : (setP v s).fpos = s.fpos := rfl
@[simp] theorem setP_inst (v : Ptr) (s : State) : (setP v s).inst = s.inst := rfl
@[simp] theorem setP_resetHeld (v : Ptr) (s : State) : (setP v s).resetHeld = s.resetHeld := rfl
@[simp] theorem setP_inAnswers (v : Ptr) (s : State) : (setP v s).inAnswers = s.inAnswers := rfl

@[simp] theorem setIp_p (v : IAddr) (s : State) : (setIp v s).p = s.p := rfl
@[simp] theorem setIp_ip (v : IAddr) (s : State) : (setIp v s).ip = v := rfl
@[simp] theorem setIp_tape (v : IAddr) (s : State) : (setIp v s).tape = s.tape := rfl
@[simp] theorem setIp_imem (v : IAddr) (s : State) : (setIp v s).imem = s.imem := rfl
@[simp] theorem setIp_progLen (v : IAddr) (s : State) : (setIp v s).progLen = s.progLen := rfl
@[simp] theorem setIp_ls (v : IAddr) (s : State) : (setIp v s).ls = s.ls := rfl
@[simp] theorem setIp_out (v : IAddr) (s : State) : (setIp v s).out = s.out := rfl
@[simp] theorem setIp_inbuf (v : IAddr) (s : State) : (setIp v s).inbuf = s.inbuf := rfl
@[simp] theorem setIp_status (v : IAddr) (s : State) : (setIp v s).status = s.status := rfl
@[simp] theorem setIp_fcause (v : IAddr) (s : State) : (setIp v s).fcause = s.fcause := rfl
@[simp] theorem setIp_fpos (v : IAddr) (s : State) : (setIp v s).fpos = s.fpos := rfl
@[simp] theorem setIp_inst (v : IAddr) (s : State) : (setIp v s).inst = s.inst := rfl
@[simp] theorem setIp_resetHeld (v : IAddr) (s : State) : (setIp v s).resetHeld = s.resetHeld := rfl
@[simp] theorem setIp_inAnswers (v : IAddr) (s : State) : (setIp v s).inAnswers = s.inAnswers := rfl

@[simp] theorem setTape_p (m : Memory) (s : State) : (setTape m s).p = s.p := rfl
@[simp] theorem setTape_ip (m : Memory) (s : State) : (setTape m s).ip = s.ip := rfl
@[simp] theorem setTape_tape (m : Memory) (s : State) : (setTape m s).tape = m := rfl
@[simp] theorem setTape_imem (m : Memory) (s : State) : (setTape m s).imem = s.imem := rfl
@[simp] theorem setTape_progLen (m : Memory) (s : State) : (setTape m s).progLen = s.progLen := rfl
@[simp] theorem setTape_ls (m : Memory) (s : State) : (setTape m s).ls = s.ls := rfl
@[simp] theorem setTape_out (m : Memory) (s : State) : (setTape m s).out = s.out := rfl
@[simp] theorem setTape_inbuf (m : Memory) (s : State) : (setTape m s).inbuf = s.inbuf := rfl
@[simp] theorem setTape_status (m : Memory) (s : State) : (setTape m s).status = s.status := rfl
@[simp] theorem setTape_fcause (m : Memory) (s : State) : (setTape m s).fcause = s.fcause := rfl
@[simp] theorem setTape_fpos (m : Memory) (s : State) : (setTape m s).fpos = s.fpos := rfl
@[simp] theorem setTape_inst (m : Memory) (s : State) : (setTape m s).inst = s.inst := rfl
@[simp] theorem setTape_resetHeld (m : Memory) (s : State) : (setTape m s).resetHeld = s.resetHeld := rfl
@[simp] theorem setTape_inAnswers (m : Memory) (s : State) : (setTape m s).inAnswers = s.inAnswers := rfl

@[simp] theorem setLs_p (l : List IAddr) (s : State) : (setLs l s).p = s.p := rfl
@[simp] theorem setLs_ip (l : List IAddr) (s : State) : (setLs l s).ip = s.ip := rfl
@[simp] theorem setLs_tape (l : List IAddr) (s : State) : (setLs l s).tape = s.tape := rfl
@[simp] theorem setLs_imem (l : List IAddr) (s : State) : (setLs l s).imem = s.imem := rfl
@[simp] theorem setLs_progLen (l : List IAddr) (s : State) : (setLs l s).progLen = s.progLen := rfl
@[simp] theorem setLs_ls (l : List IAddr) (s : State) : (setLs l s).ls = l := rfl
@[simp] theorem setLs_out (l : List IAddr) (s : State) : (setLs l s).out = s.out := rfl
@[simp] theorem setLs_inbuf (l : List IAddr) (s : State) : (setLs l s).inbuf = s.inbuf := rfl
@[simp] theorem setLs_status (l : List IAddr) (s : State) : (setLs l s).status = s.status := rfl
@[simp] theorem setLs_fcause (l : List IAddr) (s : State) : (setLs l s).fcause = s.fcause := rfl
@[simp] theorem setLs_fpos (l : List IAddr) (s : State) : (setLs l s).fpos = s.fpos := rfl
@[simp] theorem setLs_inst (l : List IAddr) (s : State) : (setLs l s).inst = s.inst := rfl
@[simp] theorem setLs_resetHeld (l : List IAddr) (s : State) : (setLs l s).resetHeld = s.resetHeld := rfl
@[simp] theorem setLs_inAnswers (l : List IAddr) (s : State) : (setLs l s).inAnswers = s.inAnswers := rfl

@[simp] theorem setOut_p (l : List Byte) (s : State) : (setOut l s).p = s.p := rfl
@[simp] theorem setOut_ip (l : List Byte) (s : State) : (setOut l s).ip = s.ip := rfl
@[simp] theorem setOut_tape (l : List Byte) (s : State) : (setOut l s).tape = s.tape := rfl
@[simp] theorem setOut_imem (l : List Byte) (s : State) : (setOut l s).imem = s.imem := rfl
@[simp] theorem setOut_progLen (l : List Byte) (s : State) : (setOut l s).progLen = s.progLen := rfl
@[simp] theorem setOut_ls (l : List Byte) (s : State) : (setOut l s).ls = s.ls := rfl
@[simp] theorem setOut_out (l : List Byte) (s : State) : (setOut l s).out = l := rfl
@[simp] theorem setOut_inbuf (l : List Byte) (s : State) : (setOut l s).inbuf = s.inbuf := rfl
@[simp] theorem setOut_status (l : List Byte) (s : State) : (setOut l s).status = s.status := rfl
@[simp] theorem setOut_fcause (l : List Byte) (s : State) : (setOut l s).fcause = s.fcause := rfl
@[simp] theorem setOut_fpos (l : List Byte) (s : State) : (setOut l s).fpos = s.fpos := rfl
@[simp] theorem setOut_inst (l : List Byte) (s : State) : (setOut l s).inst = s.inst := rfl
@[simp] theorem setOut_resetHeld (l : List Byte) (s : State) : (setOut l s).resetHeld = s.resetHeld := rfl
@[simp] theorem setOut_inAnswers (l : List Byte) (s : State) : (setOut l s).inAnswers = s.inAnswers := rfl

@[simp] theorem setInbuf_p (l : List Byte) (s : State) : (setInbuf l s).p = s.p := rfl
@[simp] theorem setInbuf_ip (l : List Byte) (s : State) : (setInbuf l s).ip = s.ip := rfl
@[simp] theorem setInbuf_tape (l : List Byte) (s : State) : (setInbuf l s).tape = s.tape := rfl
@[simp] theorem setInbuf_imem (l : List Byte) (s : State) : (setInbuf l s).imem = s.imem := rfl
@[simp] theorem setInbuf_progLen (l : List Byte) (s : State) : (setInbuf l s).progLen = s.progLen := rfl
@[simp] theorem setInbuf_ls (l : List Byte) (s : State) : (setInbuf l s).ls = s.ls := rfl
@[simp] theorem setInbuf_out (l : List Byte) (s : State) : (setInbuf l s).out = s.out := rfl
@[simp] theorem setInbuf_inbuf (l : List Byte) (s : State) : (setInbuf l s).inbuf = l := rfl
@[simp] theorem setInbuf_status (l : List Byte) (s : State) : (setInbuf l s).status = s.status := rfl
@[simp] theorem setInbuf_fcause (l : List Byte) (s : State) : (setInbuf l s).fcause = s.fcause := rfl
@[simp] theorem setInbuf_fpos (l : List Byte) (s : State) : (setInbuf l s).fpos = s.fpos := rfl
@[simp] theorem setInbuf_inst (l : List Byte) (s : State) : (setInbuf l s).inst = s.inst := rfl
@[simp] theorem setInbuf_resetHeld (l : List Byte) (s : State) : (setInbuf l s).resetHeld = s.resetHeld := rfl
@[simp] theorem setInbuf_inAnswers (l : List Byte) (s : State) : (setInbuf l s).inAnswers = s.inAnswers := rfl

@[simp] theorem setInAnswers_p (l : List PollAnswer) (s : State) : (setInAnswers l s).p = s.p := rfl
@[simp] theorem setInAnswers_ip (l : List PollAnswer) (s : State) : (setInAnswers l s).ip = s.ip := rfl
@[simp] theorem setInAnswers_tape (l : List PollAnswer) (s : State) : (setInAnswers l s).tape = s.tape := rfl
@[simp] theorem setInAnswers_imem (l : List PollAnswer) (s : State) : (setInAnswers l s).imem = s.imem := rfl
@[simp] theorem setInAnswers_progLen (l : List PollAnswer) (s : State) : (setInAnswers l s).progLen = s.progLen := rfl
@[simp] theorem setInAnswers_ls (l : List PollAnswer) (s : State) : (setInAnswers l s).ls = s.ls := rfl
@[simp] theorem setInAnswers_out (l : List PollAnswer) (s : State) : (setInAnswers l s).out = s.out := rfl
@[simp] theorem setInAnswers_inbuf (l : List PollAnswer) (s : State) : (setInAnswers l s).inbuf = s.inbuf := rfl
@[simp] theorem setInAnswers_status (l : List PollAnswer) (s : State) : (setInAnswers l s).status = s.status := rfl
@[simp] theorem setInAnswers_fcause (l : List PollAnswer) (s : State) : (setInAnswers l s).fcause = s.fcause := rfl
@[simp] theorem setInAnswers_fpos (l : List PollAnswer) (s : State) : (setInAnswers l s).fpos = s.fpos := rfl
@[simp] theorem setInAnswers_inst (l : List PollAnswer) (s : State) : (setInAnswers l s).inst = s.inst := rfl
@[simp] theorem setInAnswers_resetHeld (l : List PollAnswer) (s : State) : (setInAnswers l s).resetHeld = s.resetHeld := rfl
@[simp] theorem setInAnswers_inAnswers (l : List PollAnswer) (s : State) : (setInAnswers l s).inAnswers = l := rfl

@[simp] theorem advance_p (s : State) : (advance s).p = s.p := rfl
@[simp] theorem advance_ip (s : State) : (advance s).ip = s.ip + 1#17 := rfl
@[simp] theorem advance_tape (s : State) : (advance s).tape = s.tape := rfl
@[simp] theorem advance_imem (s : State) : (advance s).imem = s.imem := rfl
@[simp] theorem advance_progLen (s : State) : (advance s).progLen = s.progLen := rfl
@[simp] theorem advance_ls (s : State) : (advance s).ls = s.ls := rfl
@[simp] theorem advance_out (s : State) : (advance s).out = s.out := rfl
@[simp] theorem advance_inbuf (s : State) : (advance s).inbuf = s.inbuf := rfl
@[simp] theorem advance_status (s : State) : (advance s).status = s.status := rfl
@[simp] theorem advance_fcause (s : State) : (advance s).fcause = s.fcause := rfl
@[simp] theorem advance_fpos (s : State) : (advance s).fpos = s.fpos := rfl
@[simp] theorem advance_inst (s : State) : (advance s).inst = s.inst := rfl
@[simp] theorem advance_resetHeld (s : State) : (advance s).resetHeld = s.resetHeld := rfl
@[simp] theorem advance_inAnswers (s : State) : (advance s).inAnswers = s.inAnswers := rfl

@[simp] theorem enterFault_p (c : FaultCause) (s : State) : (enterFault c s).p = s.p := rfl
@[simp] theorem enterFault_ip (c : FaultCause) (s : State) : (enterFault c s).ip = s.ip := rfl
@[simp] theorem enterFault_tape (c : FaultCause) (s : State) : (enterFault c s).tape = s.tape := rfl
@[simp] theorem enterFault_imem (c : FaultCause) (s : State) : (enterFault c s).imem = s.imem := rfl
@[simp] theorem enterFault_progLen (c : FaultCause) (s : State) : (enterFault c s).progLen = s.progLen := rfl
@[simp] theorem enterFault_ls (c : FaultCause) (s : State) : (enterFault c s).ls = s.ls := rfl
@[simp] theorem enterFault_out (c : FaultCause) (s : State) : (enterFault c s).out = s.out := rfl
@[simp] theorem enterFault_inbuf (c : FaultCause) (s : State) : (enterFault c s).inbuf = s.inbuf := rfl
@[simp] theorem enterFault_status (c : FaultCause) (s : State) : (enterFault c s).status = .faulted := rfl
@[simp] theorem enterFault_fcause (c : FaultCause) (s : State) : (enterFault c s).fcause = c := rfl
@[simp] theorem enterFault_fpos (c : FaultCause) (s : State) : (enterFault c s).fpos = s.ip := rfl
@[simp] theorem enterFault_inst (c : FaultCause) (s : State) : (enterFault c s).inst = s.inst := rfl
@[simp] theorem enterFault_resetHeld (c : FaultCause) (s : State) : (enterFault c s).resetHeld = s.resetHeld := rfl
@[simp] theorem enterFault_inAnswers (c : FaultCause) (s : State) : (enterFault c s).inAnswers = s.inAnswers := rfl

@[simp] theorem halt_p (s : State) : (halt s).p = s.p := rfl
@[simp] theorem halt_ip (s : State) : (halt s).ip = s.ip := rfl
@[simp] theorem halt_tape (s : State) : (halt s).tape = s.tape := rfl
@[simp] theorem halt_imem (s : State) : (halt s).imem = s.imem := rfl
@[simp] theorem halt_progLen (s : State) : (halt s).progLen = s.progLen := rfl
@[simp] theorem halt_ls (s : State) : (halt s).ls = s.ls := rfl
@[simp] theorem halt_out (s : State) : (halt s).out = s.out := rfl
@[simp] theorem halt_inbuf (s : State) : (halt s).inbuf = s.inbuf := rfl
@[simp] theorem halt_status (s : State) : (halt s).status = .halted := rfl
@[simp] theorem halt_fcause (s : State) : (halt s).fcause = s.fcause := rfl
@[simp] theorem halt_fpos (s : State) : (halt s).fpos = s.fpos := rfl
@[simp] theorem halt_inst (s : State) : (halt s).inst = s.inst := rfl
@[simp] theorem halt_resetHeld (s : State) : (halt s).resetHeld = s.resetHeld := rfl
@[simp] theorem halt_inAnswers (s : State) : (halt s).inAnswers = s.inAnswers := rfl

@[simp] theorem emit_p (b : Byte) (s : State) : (emit b s).p = s.p := rfl
@[simp] theorem emit_ip (b : Byte) (s : State) : (emit b s).ip = s.ip := rfl
@[simp] theorem emit_tape (b : Byte) (s : State) : (emit b s).tape = s.tape := rfl
@[simp] theorem emit_imem (b : Byte) (s : State) : (emit b s).imem = s.imem := rfl
@[simp] theorem emit_progLen (b : Byte) (s : State) : (emit b s).progLen = s.progLen := rfl
@[simp] theorem emit_ls (b : Byte) (s : State) : (emit b s).ls = s.ls := rfl
@[simp] theorem emit_out (b : Byte) (s : State) : (emit b s).out = s.out ++ [b] := rfl
@[simp] theorem emit_inbuf (b : Byte) (s : State) : (emit b s).inbuf = s.inbuf := rfl
@[simp] theorem emit_status (b : Byte) (s : State) : (emit b s).status = s.status := rfl
@[simp] theorem emit_fcause (b : Byte) (s : State) : (emit b s).fcause = s.fcause := rfl
@[simp] theorem emit_fpos (b : Byte) (s : State) : (emit b s).fpos = s.fpos := rfl
@[simp] theorem emit_inst (b : Byte) (s : State) : (emit b s).inst = s.inst := rfl
@[simp] theorem emit_resetHeld (b : Byte) (s : State) : (emit b s).resetHeld = s.resetHeld := rfl
@[simp] theorem emit_inAnswers (b : Byte) (s : State) : (emit b s).inAnswers = s.inAnswers := rfl

end Sys2Proof.Machine
end

