-- ==== Sys2Proof/Laws/Ops.lean ====
section
/-! SUPPORT. One lemma per shared operation, saying once everything it can do; the meanings' proofs cite these instead
of unfolding the operations. -/

namespace Sys2Proof.Machine

/-! ## Parameters and registers -/

theorem params_wf_iff (c : Config.Params) :
    c.wf = true ↔
      1 ≤ c.tapeLen ∧ c.tapeLen < 2 ^ 15 ∧ 1 ≤ c.imemDepth ∧ c.imemDepth < 2 ^ 17 ∧ 1 ≤ c.lsDepth := by
  simp [Config.Params.wf, and_assoc]

/-- Where a word of the program stands at `ip`, the increment does not wrap (R22). -/
theorem ip_succ_toNat (s : State) (h : s.ip.toNat < s.progLen.toNat) : (s.ip + 1#17).toNat = s.ip.toNat + 1 := by
  have := s.progLen.isLt
  simp [BitVec.toNat_add]
  omega

/-- The boundary rule of `>` on numbers (R101); the register does not overflow. -/
theorem movedRight_toNat (n : Nat) (p : Ptr) (h : n < 2 ^ 15) :
    (movedRight n p).toNat = if p.toNat < n - 1 then p.toNat + 1 else 0 := by
  unfold movedRight
  split
  · simp [BitVec.toNat_add]; omega
  · simp

/-- The boundary rule of `<` on numbers (R102); the register does not underflow. -/
theorem movedLeft_toNat (n : Nat) (p : Ptr) (h : n < 2 ^ 15) :
    (movedLeft n p).toNat = if 0 < p.toNat then p.toNat - 1 else n := by
  unfold movedLeft
  split
  · rw [BitVec.toNat_sub]; simp; omega
  · simp; omega

/-! ## Access primitives -/

theorem offTape_iff (s : State) (a : Ptr) : offTape s a = true ↔ s.inst.tapeLen ≤ a.toNat := by
  simp [offTape]

theorem offTape_eq_false_iff (s : State) (a : Ptr) : offTape s a = false ↔ a.toNat < s.inst.tapeLen := by
  simp [offTape]

theorem memRead_eq (s : State) (a : Ptr) :
    memRead s a = if s.inst.tapeLen ≤ a.toNat then none else some (s.tape.read a.toNat) := by
  simp [memRead, offTape]

theorem currentCell_eq (s : State) :
    currentCell s = if s.inst.tapeLen ≤ s.p.toNat then none else some (s.tape.read s.p.toNat) :=
  memRead_eq s s.p

/-- `storeCell` faults off the tape, and else writes one cell and advances. -/
theorem storeCell_eq (v : Byte) (s : State) :
    storeCell v s =
      if s.inst.tapeLen ≤ s.p.toNat then raise .pointerOutOfTape s
      else .next (advance (setTape (s.tape.write s.p.toNat v) s)) := by
  by_cases h : s.inst.tapeLen ≤ s.p.toNat <;> simp [storeCell, memWrite, effectiveAddr, offTape, h]

/-- `modifyCell` faults off the tape, and else replaces the current cell by its ALU result and advances. -/
theorem modifyCell_eq (op : AluOp) (s : State) :
    modifyCell op s =
      if s.inst.tapeLen ≤ s.p.toNat then raise .pointerOutOfTape s
      else .next (advance (setTape (s.tape.write s.p.toNat (aluResult op (s.tape.read s.p.toNat))) s)) := by
  by_cases h : s.inst.tapeLen ≤ s.p.toNat <;> simp [modifyCell, currentCell_eq, storeCell_eq, h]

/-! ## Loop stack and input -/

/-- `pushLoop` adds the entry on top, or has no room. -/
theorem pushLoop_cases (v : IAddr) (s : State) :
    (s.inst.lsDepth ≤ s.ls.length ∧ pushLoop v s = none) ∨
      (s.ls.length < s.inst.lsDepth ∧ pushLoop v s = some (setLs (v :: s.ls) s)) := by
  by_cases h : s.inst.lsDepth ≤ s.ls.length
  · exact .inl ⟨h, by simp [pushLoop, h]⟩
  · exact .inr ⟨by omega, by simp [pushLoop, h]⟩

/-- `popLoop` takes the top entry, or finds the stack empty. -/
theorem popLoop_cases (s : State) :
    (s.ls = [] ∧ popLoop s = none) ∨ ∃ k rest, s.ls = k :: rest ∧ popLoop s = some (k, setLs rest s) := by
  cases h : s.ls with
  | nil => exact .inl ⟨rfl, by simp [popLoop, h]⟩
  | cons k rest => exact .inr ⟨k, rest, rfl, by simp [popLoop, h]⟩

/-- `inNext` takes the next pre-supplied byte, or else one answer of the host, or finds neither. -/
theorem inNext_cases (s : State) :
    (∃ b rest, s.inbuf = b :: rest ∧ inNext s = some (b, setInbuf rest s)) ∨
      (∃ b rest, s.inbuf = [] ∧ s.inAnswers = .byte b :: rest ∧ inNext s = some (b, setInAnswers rest s)) ∨
      (∃ rest, s.inbuf = [] ∧ s.inAnswers = .endOfData :: rest ∧ inNext s = some (0#8, setInAnswers rest s)) ∨
      (s.inbuf = [] ∧ s.inAnswers = [] ∧ inNext s = none) := by
  cases hb : s.inbuf with
  | cons b rest => exact .inl ⟨b, rest, rfl, by simp [inNext, hb]⟩
  | nil =>
    cases ha : s.inAnswers with
    | nil => exact .inr (.inr (.inr ⟨rfl, rfl, by simp [inNext, inPoll, hb, ha]⟩))
    | cons a rest =>
      cases a with
      | byte b => exact .inr (.inl ⟨b, rest, rfl, rfl, by simp [inNext, inPoll, hb, ha]⟩)
      | endOfData => exact .inr (.inr (.inl ⟨rest, rfl, rfl, by simp [inNext, inPoll, hb, ha]⟩))

/-- Taking input changes no register, no cell and no stack entry. -/
theorem inNext_frame (s t : State) (b : Byte) (h : inNext s = some (b, t)) :
    t = { s with inbuf := t.inbuf, inAnswers := t.inAnswers } := by
  rcases inNext_cases s with ⟨_, _, _, e⟩ | ⟨_, _, _, _, e⟩ | ⟨_, _, _, e⟩ | ⟨_, _, e⟩ <;> rw [e] at h <;> cases h <;> rfl

/-! ## The forward scan -/

@[simp] theorem scanClose_zero (imem : Memory) (j depth : Nat) : scanClose imem 0 j depth = none := rfl

theorem scanClose_open (imem : Memory) (n j depth : Nat) (h : imem.read j = opOpen) :
    scanClose imem (n + 1) j depth = scanClose imem n (j + 1) (depth + 1) := by
  simp [scanClose, h]

theorem scanClose_close_zero (imem : Memory) (n j : Nat) (h : imem.read j = opClose) :
    scanClose imem (n + 1) j 0 = some j := by
  have hno : opClose ≠ opOpen := by decide
  simp [scanClose, h, hno]

theorem scanClose_close_succ (imem : Memory) (n j depth : Nat) (h : imem.read j = opClose) :
    scanClose imem (n + 1) j (depth + 1) = scanClose imem n (j + 1) depth := by
  have hno : opClose ≠ opOpen := by decide
  simp [scanClose, h, hno]

theorem scanClose_other (imem : Memory) (n j depth : Nat) (ho : imem.read j ≠ opOpen) (hc : imem.read j ≠ opClose) :
    scanClose imem (n + 1) j depth = scanClose imem n (j + 1) depth := by
  simp [scanClose, ho, hc]

/-- What the scan finds is a `]` among the addresses it looked at. -/
theorem scanClose_some (imem : Memory) (n j depth c : Nat) (h : scanClose imem n j depth = some c) :
    j ≤ c ∧ c < j + n ∧ imem.read c = opClose := by
  induction n generalizing j depth with
  | zero => cases h
  | succ n ih =>
    by_cases ho : imem.read j = opOpen
    · rw [scanClose_open _ _ _ _ ho] at h
      have := ih _ _ h; exact ⟨by omega, by omega, this.2.2⟩
    · by_cases hc : imem.read j = opClose
      · cases depth with
        | zero =>
          rw [scanClose_close_zero _ _ _ hc] at h
          cases h; exact ⟨by omega, by omega, hc⟩
        | succ d =>
          rw [scanClose_close_succ _ _ _ _ hc] at h
          have := ih _ _ h; exact ⟨by omega, by omega, this.2.2⟩
      · rw [scanClose_other _ _ _ _ ho hc] at h
        have := ih _ _ h; exact ⟨by omega, by omega, this.2.2⟩

/-- What `matchClose` finds lies after the `[` and inside the program, and is what the scan found. -/
theorem matchClose_some (s : State) (i m : IAddr) (h : matchClose s i = some m) :
    i.toNat < m.toNat ∧ m.toNat < s.progLen.toNat ∧ fetch s m = opClose ∧
      scanClose s.imem (s.progLen.toNat - (i.toNat + 1)) (i.toNat + 1) 0 = some m.toNat := by
  obtain ⟨c, hc, rfl⟩ := Option.map_eq_some_iff.mp h
  obtain ⟨h1, h2, h3⟩ := scanClose_some _ _ _ _ _ hc
  have hp := s.progLen.isLt
  have hn : (BitVec.ofNat 17 c).toNat = c := by rw [BitVec.toNat_ofNat]; exact Nat.mod_eq_of_lt (by omega)
  exact ⟨by omega, by omega, by rw [fetch, hn]; exact h3, by rw [hn]; exact hc⟩

/-! ## The two arms of `[` -/

/-- `skipLoop` jumps past the match, or faults. -/
theorem skipLoop_cases (s : State) :
    (matchClose s s.ip = none ∧ skipLoop s = raise .unmatchedOpenBracket s) ∨
      ∃ m, matchClose s s.ip = some m ∧ skipLoop s = .next (setIp (m + 1#17) s) := by
  cases h : matchClose s s.ip with
  | none => exact .inl ⟨rfl, by simp [skipLoop, h]⟩
  | some m => exact .inr ⟨m, rfl, by simp [skipLoop, h]⟩

/-- `enterLoop` pushes its own address and advances, or faults. -/
theorem enterLoop_cases (s : State) :
    (s.inst.lsDepth ≤ s.ls.length ∧ enterLoop s = raise .loopStackOverflow s) ∨
      (s.ls.length < s.inst.lsDepth ∧ enterLoop s = .next (advance (setLs (s.ip :: s.ls) s))) := by
  rcases pushLoop_cases s.ip s with ⟨h, e⟩ | ⟨h, e⟩
  · exact .inl ⟨h, by simp [enterLoop, e]⟩
  · exact .inr ⟨h, by simp [enterLoop, e]⟩

/-! ## The step -/

theorem idle_iff (s : State) : idle s = true ↔ s.resetHeld = true ∨ s.status ≠ .running := by
  simp [idle]

theorem idle_eq_false_iff (s : State) : idle s = false ↔ s.resetHeld = false ∧ s.status = .running := by
  simp [idle]

theorem pastEnd_iff (s : State) : pastEnd s = true ↔ s.progLen.toNat ≤ s.ip.toNat := by
  simp [pastEnd]

theorem pastEnd_eq_false_iff (s : State) : pastEnd s = false ↔ s.ip.toNat < s.progLen.toNat := by
  simp [pastEnd]

/-- Everything a step can do: nothing, the halt, or one instruction. -/
theorem step_cases (s : State) :
    (idle s = true ∧ step s = .next s) ∨
      (idle s = false ∧ s.progLen.toNat ≤ s.ip.toNat ∧ step s = .next (halt s)) ∨
      (idle s = false ∧ s.ip.toNat < s.progLen.toNat ∧ step s = exec (nextInstr s) s) := by
  cases hi : idle s with
  | true => exact .inl ⟨rfl, by simp [step, hi]⟩
  | false =>
    by_cases hp : s.progLen.toNat ≤ s.ip.toNat
    · exact .inr (.inl ⟨rfl, hp, by simp [step, hi, pastEnd, hp]⟩)
    · exact .inr (.inr ⟨rfl, by omega, by simp [step, hi, pastEnd, hp]⟩)

end Sys2Proof.Machine
end

