-- ==== Sys2Proof/Laws/Exec.lean ====
section
/-! SUPPORT. Everything exec can do, said once: `Effect s i t` lists the next states of each instruction, and
`exec_effect` is the inversion lemma. A proof over all instructions is a `cases` on it. -/

namespace Sys2Proof.Machine

/-- `t` is a next state of `exec i s`, with the condition it is taken under. -/
inductive Effect (s : State) : Instr → State → Prop where
  | right : Effect s .right (advance (setP (movedRight s.inst.tapeLen s.p) s))
  | left : Effect s .left (advance (setP (movedLeft s.inst.tapeLen s.p) s))
  | nop (w : Byte) : Effect s (.nop w) (advance s)
  | offTape (i : Instr) (ha : accessesTape i = true) (hp : s.inst.tapeLen ≤ s.p.toNat) :
      Effect s i (enterFault .pointerOutOfTape s)
  | inc (hp : s.p.toNat < s.inst.tapeLen) :
      Effect s .inc (advance (setTape (s.tape.write s.p.toNat (aluResult .inc (s.tape.read s.p.toNat))) s))
  | dec (hp : s.p.toNat < s.inst.tapeLen) :
      Effect s .dec (advance (setTape (s.tape.write s.p.toNat (aluResult .dec (s.tape.read s.p.toNat))) s))
  | output (hp : s.p.toNat < s.inst.tapeLen) : Effect s .output (advance (emit (s.tape.read s.p.toNat) s))
  | held (hp : s.p.toNat < s.inst.tapeLen) (hb : s.inbuf = []) (ha : s.inAnswers = []) : Effect s .input s
  | buffered (b : Byte) (rest : List Byte) (hp : s.p.toNat < s.inst.tapeLen) (hb : s.inbuf = b :: rest) :
      Effect s .input (advance (setTape (s.tape.write s.p.toNat b) (setInbuf rest s)))
  | answered (b : Byte) (x : PollAnswer) (rest : List PollAnswer) (hp : s.p.toNat < s.inst.tapeLen)
      (hb : s.inbuf = []) (ha : s.inAnswers = x :: rest) (hx : x = .byte b ∨ x = .endOfData ∧ b = 0#8) :
      Effect s .input (advance (setTape (s.tape.write s.p.toNat b) (setInAnswers rest s)))
  | unmatched (hp : s.p.toNat < s.inst.tapeLen) (hz : s.tape.read s.p.toNat = 0#8)
      (hm : matchClose s s.ip = none) : Effect s .openLoop (enterFault .unmatchedOpenBracket s)
  | skip (m : IAddr) (hp : s.p.toNat < s.inst.tapeLen) (hz : s.tape.read s.p.toNat = 0#8)
      (hm : matchClose s s.ip = some m) : Effect s .openLoop (setIp (m + 1#17) s)
  | overflow (hp : s.p.toNat < s.inst.tapeLen) (hz : s.tape.read s.p.toNat ≠ 0#8)
      (hd : s.inst.lsDepth ≤ s.ls.length) : Effect s .openLoop (enterFault .loopStackOverflow s)
  | enter (hp : s.p.toNat < s.inst.tapeLen) (hz : s.tape.read s.p.toNat ≠ 0#8)
      (hd : s.ls.length < s.inst.lsDepth) : Effect s .openLoop (advance (setLs (s.ip :: s.ls) s))
  | closeEmpty (hl : s.ls = []) : Effect s .closeLoop (advance s)
  | closePop (k : IAddr) (rest : List IAddr) (hl : s.ls = k :: rest) :
      Effect s .closeLoop (setIp k (setLs rest s))

theorem aluTest_iff (v : Byte) : aluTest v = true ↔ v = 0#8 := by
  simp [aluTest]

theorem execInput_on_tape (s : State) (hp : s.p.toNat < s.inst.tapeLen) :
    execInput s = match inNext s with
      | none => .next s
      | some (b, t) => storeCell b t := by
  simp only [execInput, effectiveAddr, (offTape_eq_false_iff s s.p).mpr hp, aluResult]
  rfl

/-- Every instruction answers a next state, and one of those `Effect` lists. -/
theorem exec_has_effect (i : Instr) (s : State) : ∃ t, exec i s = .next t ∧ Effect s i t := by
  by_cases hp : s.inst.tapeLen ≤ s.p.toNat
  · cases i with
    | right => exact ⟨_, rfl, .right⟩
    | left => exact ⟨_, rfl, .left⟩
    | inc => exact ⟨_, by simp [exec, execInc, modifyCell_eq, hp, raise], .offTape _ rfl hp⟩
    | dec => exact ⟨_, by simp [exec, execDec, modifyCell_eq, hp, raise], .offTape _ rfl hp⟩
    | output => exact ⟨_, by simp [exec, execOutput, currentCell_eq, hp, raise], .offTape _ rfl hp⟩
    | input => exact ⟨_, by simp [exec, execInput, offTape, effectiveAddr, hp, raise], .offTape _ rfl hp⟩
    | openLoop => exact ⟨_, by simp [exec, execOpenLoop, currentCell_eq, hp, raise], .offTape _ rfl hp⟩
    | closeLoop =>
      rcases popLoop_cases s with ⟨hl, e⟩ | ⟨k, rest, hl, e⟩
      · exact ⟨_, by simp [exec, execCloseLoop, e], .closeEmpty hl⟩
      · exact ⟨_, by simp [exec, execCloseLoop, e], .closePop k rest hl⟩
    | nop w => exact ⟨_, rfl, .nop w⟩
  · have hp' : s.p.toNat < s.inst.tapeLen := by omega
    cases i with
    | right => exact ⟨_, rfl, .right⟩
    | left => exact ⟨_, rfl, .left⟩
    | inc => exact ⟨_, by simp [exec, execInc, modifyCell_eq, hp], .inc hp'⟩
    | dec => exact ⟨_, by simp [exec, execDec, modifyCell_eq, hp], .dec hp'⟩
    | output => exact ⟨_, by simp [exec, execOutput, currentCell_eq, hp, aluResult], .output hp'⟩
    | input =>
      simp only [exec, execInput_on_tape s hp']
      rcases inNext_cases s with ⟨b, rest, hb, e⟩ | ⟨b, rest, hb, ha, e⟩ | ⟨rest, hb, ha, e⟩ | ⟨hb, ha, e⟩ <;>
        simp only [e, storeCell_eq, setInbuf_inst, setInbuf_p, setInAnswers_inst, setInAnswers_p, hp, if_false]
      · exact ⟨_, rfl, .buffered b rest hp' hb⟩
      · exact ⟨_, rfl, .answered b _ rest hp' hb ha (.inl rfl)⟩
      · exact ⟨_, rfl, .answered 0#8 _ rest hp' hb ha (.inr ⟨rfl, rfl⟩)⟩
      · exact ⟨_, rfl, .held hp' hb ha⟩
    | openLoop =>
      simp only [exec, execOpenLoop, currentCell_eq, if_neg hp]
      by_cases hz : s.tape.read s.p.toNat = 0#8
      · rw [if_pos ((aluTest_iff _).mpr hz)]
        rcases skipLoop_cases s with ⟨hm, e⟩ | ⟨m, hm, e⟩ <;> rw [e]
        · exact ⟨_, rfl, .unmatched hp' hz hm⟩
        · exact ⟨_, rfl, .skip m hp' hz hm⟩
      · rw [if_neg (fun h => hz ((aluTest_iff _).mp h))]
        rcases enterLoop_cases s with ⟨hd, e⟩ | ⟨hd, e⟩ <;> rw [e]
        · exact ⟨_, rfl, .overflow hp' hz hd⟩
        · exact ⟨_, rfl, .enter hp' hz hd⟩
    | closeLoop =>
      rcases popLoop_cases s with ⟨hl, e⟩ | ⟨k, rest, hl, e⟩
      · exact ⟨_, by simp [exec, execCloseLoop, e], .closeEmpty hl⟩
      · exact ⟨_, by simp [exec, execCloseLoop, e], .closePop k rest hl⟩
    | nop w => exact ⟨_, rfl, .nop w⟩

/-- The inversion lemma: a next state of exec is one of those `Effect` lists. -/
theorem exec_effect (i : Instr) (s t : State) (h : exec i s = .next t) : Effect s i t := by
  obtain ⟨u, hu, e⟩ := exec_has_effect i s
  rw [h] at hu
  cases hu
  exact e

end Sys2Proof.Machine
end

