-- ==== Sys2Proof/Laws/PerInstr.lean ====
section
/-! SUPPORT. Statements made per instruction: the word of a well-formed instruction matches exactly one pattern of its
own row of spec/opcode_table.json (30_encoding.md R74). -/

namespace Sys2Proof.Laws

/-- The word of `i` matches exactly one of its row's match and mask pairs. -/
def OneRow.Statement (i : Instr) : Prop := i.wf = true → rowMatches i (encode i) = 1

theorem OneRow.right : OneRow.Statement .right := fun _ => by decide
theorem OneRow.left : OneRow.Statement .left := fun _ => by decide
theorem OneRow.inc : OneRow.Statement .inc := fun _ => by decide
theorem OneRow.dec : OneRow.Statement .dec := fun _ => by decide
theorem OneRow.output : OneRow.Statement .output := fun _ => by decide
theorem OneRow.input : OneRow.Statement .input := fun _ => by decide
theorem OneRow.openLoop : OneRow.Statement .openLoop := fun _ => by decide
theorem OneRow.closeLoop : OneRow.Statement .closeLoop := fun _ => by decide
theorem OneRow.nop (w : Byte) : OneRow.Statement (.nop w) := by
  revert w; unfold OneRow.Statement; decide

end Sys2Proof.Laws
end

