-- ==== Sys2Proof/Tests/Slice0.lean ====
section
/-! SUPPORT. Small tests, each about one step or one function. Expected results are from the spec's words, its tables
and 95_test_vectors.md, named in each comment; none is the model's own answer pasted in. -/

namespace Sys2Proof.Tests

open Sys2Proof.Machine

/-- Reset with the words `ws` loaded. -/
def prog (ws : List Byte) : State := loadedWords ws State.reset

/-- The next state an outcome answers, if it answers one. -/
def nextOf (o : Host.Outcome State Fault Refusal) : Option State :=
  match o with
  | .next t => some t
  | .fault _ => none
  | .refused _ => none

/-- `status`, `fcause`, `fpos` and `ip` as numbers, after an instruction. -/
def record (o : Host.Outcome State Fault Refusal) : Option (Nat × Nat × Nat × Nat) :=
  (nextOf o).map fun t =>
    ((resultPort t).status.toNat, (resultPort t).fcause.toNat, t.fpos.toNat, t.ip.toNat)

/-! ## WellFormed: the one check, with an ill-formed term for each word it refuses (R150) -/

theorem test_wf_refuses_coded_nop :
    ([0x2B#8, 0x2C#8, 0x2D#8, 0x2E#8, 0x3C#8, 0x3E#8, 0x5B#8, 0x5D#8].map fun w => (Instr.nop w).wf) =
      [false, false, false, false, false, false, false, false] := by decide

theorem test_wf_admits_other_nop : (Instr.nop 0x61#8).wf = true ∧ Instr.closeLoop.wf = true := by decide

/-- The constraints of the parameter table, each broken once. -/
theorem test_params_wf :
    Config.engine.wf = true ∧
      (Config.Params.mk 0 1 1).wf = false ∧ (Config.Params.mk 32768 1 1).wf = false ∧
      (Config.Params.mk 1 0 1).wf = false ∧ (Config.Params.mk 1 131072 1).wf = false ∧
      (Config.Params.mk 1 1 0).wf = false := by decide

/-- The canonical form refuses an unsorted list, a repeat, and a listed zero. -/
theorem test_memory_wf :
    Memory.wf [(1, 5#8), (7, 9#8)] = true ∧ Memory.wf [(7, 9#8), (1, 5#8)] = false ∧
      Memory.wf [(1, 5#8), (1, 5#8)] = false ∧ Memory.wf [(1, 0#8)] = false := by decide

/-! ## Decode: words written out bit by bit from the table of R73 -/

theorem test_decode_right : decode 0b00111110#8 = .right := by decide
theorem test_decode_left : decode 0b00111100#8 = .left := by decide
theorem test_decode_inc : decode 0b00101011#8 = .inc := by decide
theorem test_decode_dec : decode 0b00101101#8 = .dec := by decide
theorem test_decode_output : decode 0b00101110#8 = .output := by decide
theorem test_decode_input : decode 0b00101100#8 = .input := by decide
theorem test_decode_openLoop : decode 0b01011011#8 = .openLoop := by decide
theorem test_decode_closeLoop : decode 0b01011101#8 = .closeLoop := by decide
/-- R80: the letter a; R75: 0x00 and the whitespace words; 95 "Decode": no case folding, no top-bit alias. -/
theorem test_decode_nop :
    ∀ w ∈ [0x61#8, 0x00#8, 0x20#8, 0x0A#8, 0x7B#8, 0x7D#8, 0xAB#8, 0xDD#8], decode w = .nop w := by decide

theorem test_decodeTableWord : decodeTableWord 8 91 = some .openLoop ∧ decodeTableWord 8 0 = some (.nop 0#8) := by
  decide

/-! ## The pointer (95: V-P1 to V-P8; 41 R101: TAPE_LEN = 1) -/

/-- V-P2, V-P3, V-P4. -/
theorem test_right_wraps :
    ([29998#15, 29999#15, 30000#15].map fun p => (movedRight 30000 p).toNat) = [29999, 0, 0] := by decide

/-- R101, TAPE_LEN = 1: `>` always gives 0; R102, TAPE_LEN = 1: `<` from 0 gives 1, from 1 gives 0. -/
theorem test_pointer_tape_of_one :
    movedRight 1 0#15 = 0#15 ∧ movedRight 1 1#15 = 0#15 ∧ movedLeft 1 0#15 = 1#15 ∧ movedLeft 1 1#15 = 0#15 := by
  decide

/-- V-P5 to V-P8. -/
theorem test_left_leaves_tape :
    ([1#15, 29999#15, 0#15, 30000#15].map fun p => (movedLeft 30000 p).toNat) = [0, 29998, 30000, 29999] := by decide

/-! ## Arithmetic (V-A1 to V-A10) -/

theorem test_inc : ([0#8, 127#8, 254#8, 255#8].map (aluResult .inc)) = [1#8, 128#8, 255#8, 0#8] := by decide
theorem test_dec : ([1#8, 0#8, 128#8, 255#8].map (aluResult .dec)) = [0#8, 255#8, 127#8, 254#8] := by decide

/-- V-A4 on the state: cell 5 from 255 to 0, ip from 3 to 4. -/
theorem test_inc_cell_wraps :
    (nextOf (exec .inc { State.reset with p := 5#15, ip := 3#17, tape := [(5, 255#8)] })).map
      (fun t => (t.tape, t.ip)) = some ([], 4#17) := by decide

/-- V-A10: the fault record, ip unchanged. -/
theorem test_dec_off_tape :
    record (exec .dec { State.reset with p := 30000#15, ip := 3#17 }) = some (2, 2, 3, 3) := by decide

/-! ## Input and output (V-IO) -/

/-- R120's example: the letter H. -/
theorem test_output :
    (nextOf (exec .output { State.reset with p := 2#15, ip := 50#17, tape := [(2, 72#8)] })).map
      (fun t => (t.out, t.ip, t.tape)) = some ([0x48#8], 51#17, [(2, 72#8)]) := by decide

/-- V-IO13: nothing is emitted off the tape. -/
theorem test_output_off_tape :
    (nextOf (exec .output { State.reset with p := 30000#15, ip := 1#17 })).map
      (fun t => (t.out, t.status, t.fpos)) = some ([], .faulted, 1#17) := by decide

/-- R122's example, and V-IO11: two polls, `EndOfData` first, not sticky. -/
theorem test_input_sources :
    (nextOf (exec .input { State.reset with tape := [(0, 9#8)], inbuf := [0x52#8, 0x75#8] })).map
        (fun t => (t.tape, t.inbuf, t.ip)) = some ([(0, 0x52#8)], [0x75#8], 1#17) ∧
      (nextOf (exec .input { State.reset with tape := [(0, 1#8)], inAnswers := [.endOfData, .byte 67#8] })).map
        (fun t => (t.tape, t.inAnswers)) = some ([], [.byte 67#8]) := by decide

/-- V-IO14: off the tape no input is consumed; V-IO17: without an answer nothing changes. -/
theorem test_input_fault_and_hold :
    (nextOf (exec .input { State.reset with p := 30000#15, ip := 1#17, inbuf := [65#8] })).map
        (fun t => (t.inbuf, t.fcause, t.ip)) = some ([65#8], .pointerOutOfTape, 1#17) ∧
      nextOf (exec .input State.reset) = some State.reset := by decide

/-! ## Loops (V-L1 to V-L10, R133) -/

/-- The values R133 lists: `[]`, `[[]]`, `[[]`, `[.`, `[a]b]`, `][`. -/
theorem test_matchClose :
    matchClose (prog [0x5B#8, 0x5D#8]) 0#17 = some 1#17 ∧
      matchClose (prog [0x5B#8, 0x5B#8, 0x5D#8, 0x5D#8]) 0#17 = some 3#17 ∧
      matchClose (prog [0x5B#8, 0x5B#8, 0x5D#8, 0x5D#8]) 1#17 = some 2#17 ∧
      matchClose (prog [0x5B#8, 0x5B#8, 0x5D#8]) 0#17 = none ∧
      matchClose (prog [0x5B#8, 0x5B#8, 0x5D#8]) 1#17 = some 2#17 ∧
      matchClose (prog [0x5B#8, 0x2E#8]) 0#17 = none ∧
      matchClose (prog [0x5B#8, 0x61#8, 0x5D#8, 0x62#8, 0x5D#8]) 0#17 = some 2#17 ∧
      matchClose (prog [0x5D#8, 0x5B#8]) 1#17 = none := by decide

/-- V-L1 and V-L2: `[-]+` at 0 with cell 0, and with cell 5. -/
theorem test_open :
    (nextOf (exec .openLoop (prog [0x5B#8, 0x2D#8, 0x5D#8, 0x2B#8]))).map (fun t => (t.ip, t.ls)) =
        some (3#17, []) ∧
      (nextOf (exec .openLoop { prog [0x5B#8, 0x2D#8, 0x5D#8, 0x2B#8] with tape := [(0, 5#8)] })).map
        (fun t => (t.ip, t.ls)) = some (1#17, [0#17]) := by decide

/-- V-F1, the LS_DEPTH = 1 case after V-F12, and the priority of `<[`. -/
theorem test_open_faults :
    record (exec .openLoop (prog [0x5B#8, 0x2E#8])) = some (2, 1, 0, 0) ∧
      record (exec .openLoop { prog [0x2B#8, 0x5B#8, 0x5B#8] with
        ip := 2#17, ls := [1#17], tape := [(0, 1#8)], inst := ⟨30000, 65536, 1⟩ }) = some (2, 3, 2, 2) ∧
      record (exec .openLoop { prog [0x3C#8, 0x5B#8] with ip := 1#17, p := 30000#15 }) = some (2, 2, 1, 1) := by
  decide

/-- V-L8 (`ls = [1, 2]` bottom first: the top is 2), V-L4, V-L10. -/
theorem test_close :
    (nextOf (exec .closeLoop { State.reset with ip := 4#17, ls := [2#17, 1#17] })).map (fun t => (t.ip, t.ls)) =
        some (2#17, [1#17]) ∧
      (nextOf (exec .closeLoop { State.reset with ip := 1#17, p := 30000#15 })).map (fun t => (t.ip, t.status)) =
        some (2#17, .running) := by decide

/-! ## NOP (V-N1), the step, withFetchWord -/

theorem test_nop : (nextOf (exec (.nop 0x61#8) { State.reset with ip := 4#17 })).map (·.ip) = some 5#17 := by decide

/-- V-H1: the empty program halts at its first step; V-H3: then nothing changes. -/
theorem test_halt :
    nextOf (step State.reset) = some { State.reset with status := .halted } ∧
      nextOf (step { State.reset with status := .halted }) = some { State.reset with status := .halted } := by decide

/-- Each row's word runs as the first instruction after reset; `,` is held, as V-IO17 says. -/
theorem test_first_instruction :
    ([0x3E, 0x3C, 0x2B, 0x2D, 0x2E, 0x2C, 0x5B, 0x5D, 0x00].map fun w =>
      record (step (State.reset.withFetchWord 8 w))) =
      [some (0, 0, 0, 1), some (0, 0, 0, 1), some (0, 0, 0, 1), some (0, 0, 0, 1), some (0, 0, 0, 1),
       some (0, 0, 0, 0), some (2, 1, 0, 0), some (0, 0, 0, 1), some (0, 0, 0, 1)] := by decide

/-! ## The host's functions (V-T1, V-T3, V-T5, R193) -/

theorem test_strip :
    strip Config.isSpace [0x2B#8, 0x20#8, 0x2B#8, 0x0A#8, 0x09#8, 0x2E#8, 0x0D#8] = [0x2B#8, 0x2B#8, 0x2E#8] := by
  decide

theorem test_trim :
    trim Config.isSpace [10#8, 32#8, 72#8, 32#8, 105#8, 9#8, 10#8] = [72#8, 32#8, 105#8] ∧
      trim Config.isSpace [0#8, 10#8] = [0#8] ∧ trim Config.isSpace [12#8] = [] := by decide

/-- A program longer than IMEM_DEPTH is refused, one of exactly that length is loaded (R33, D18). -/
theorem test_load_limit :
    loadProgram [0x2B#8, 0x2E#8] { applyReset State.reset with inst := ⟨30000, 1, 1⟩ } =
        .refused .programTooLong ∧
      (nextOf (loadProgram [0x2B#8] { applyReset State.reset with inst := ⟨30000, 1, 1⟩ })).map
        (fun t => (t.imem, t.progLen)) = some ([(0, 0x2B#8)], 1#17) :=
  ⟨rfl, by decide⟩

/-! ## Witnesses: for each obligation with hypotheses, a state and operands that meet all of them, at the boundaries

The obligation is named in each theorem's name. -/

/-- On the tape's last cell, at the value past it, and at 0. -/
theorem witness_RightMovesAndWraps :
    Config.engine.wf = true ∧ ({ State.reset with p := 29999#15 } : State).p.toNat < Config.engine.tapeLen ∧
      ({ State.reset with p := 30000#15 } : State).p.toNat = Config.engine.tapeLen := by decide

theorem witness_LeftMovesAndLeavesTape :
    State.reset.inst.wf = true ∧ State.reset.p = 0 ∧ (1 ≤ 1 ∧ 1 ≤ State.reset.inst.tapeLen + 1) ∧
      (1 ≤ 30001 ∧ 30001 ≤ State.reset.inst.tapeLen + 1) ∧
      (1 ≤ 29999 ∧ 29999 < State.reset.inst.tapeLen) ∧ 30000 ≤ State.reset.inst.tapeLen := by decide

/-- One pointer for each row of the table: 0, 1 and 29998, 29999, 30000. -/
theorem witness_PointerTransitionTable :
    State.reset.inst.wf = true ∧ State.reset.status = .running ∧ accessesTape .inc = true ∧
      (State.reset.p = 0 ∧ (0#15).toNat ≤ State.reset.inst.tapeLen) ∧
      (1 ≤ (1#15).toNat ∧ (1#15).toNat + 2 ≤ State.reset.inst.tapeLen) ∧
      (1 ≤ (29998#15).toNat ∧ (29998#15).toNat + 2 ≤ State.reset.inst.tapeLen) ∧
      (2 ≤ State.reset.inst.tapeLen ∧ (29999#15).toNat + 1 = State.reset.inst.tapeLen) ∧
      (30000#15).toNat = State.reset.inst.tapeLen := by decide

/-- The last cell and the first value off the tape, for the five instructions that access it. -/
theorem witness_IncAddsOneModulo256 :
    ({ State.reset with p := 29999#15 } : State).p.toNat < State.reset.inst.tapeLen ∧
      State.reset.inst.tapeLen ≤ ({ State.reset with p := 30000#15 } : State).p.toNat := by decide

theorem witness_DecSubtractsOneModulo256 :
    State.reset.p.toNat < State.reset.inst.tapeLen ∧
      State.reset.inst.tapeLen ≤ ({ State.reset with p := 32767#15 } : State).p.toNat := by decide

theorem witness_OutAppendsCell :
    ({ State.reset with p := 29999#15 } : State).p.toNat < State.reset.inst.tapeLen ∧
      State.reset.inst.tapeLen ≤ ({ State.reset with p := 30000#15 } : State).p.toNat := by decide

theorem witness_InStoresNextByte :
    (let s : State := { State.reset with p := 29999#15, inbuf := [1#8] }
     s.p.toNat < s.inst.tapeLen ∧ s.inbuf = 1#8 :: []) ∧
      (let s : State := { State.reset with inAnswers := [.endOfData, .byte 3#8] }
       s.p.toNat < s.inst.tapeLen ∧ s.inbuf = [] ∧ s.inAnswers = .endOfData :: [.byte 3#8]) ∧
      (let s : State := { State.reset with p := 30000#15 }
       s.inst.tapeLen ≤ s.p.toNat) := by decide

/-- The program `,` with no input: the poll is outstanding; with nothing loaded, none is. -/
theorem witness_AnswerEndsTheHold : pollPending (prog [0x2C#8]) = true := by decide

theorem witness_UnaskedAnswerDoesNothing :
    pollPending State.reset = false ∧ pollPending { prog [0x2C#8] with inbuf := [1#8] } = false ∧
      pollPending { prog [0x2C#8] with p := 30000#15 } = false := by decide

theorem witness_OnlyDotOutputsOnlyCommaReads :
    (nextOf (exec .output State.reset)).isSome = true ∧ (nextOf (exec .input State.reset)).isSome = true := by decide

/-- One state per clause, at the boundary of the stack: depth 0 of 1, and 1 of 1. -/
theorem witness_OpenSkipsOrEnters :
    State.reset.inst.tapeLen ≤ ({ State.reset with p := 30000#15 } : State).p.toNat ∧
      (let s := prog [0x5B#8, 0x5D#8]
       s.p.toNat < s.inst.tapeLen ∧ s.tape.read s.p.toNat = 0#8 ∧ matchClose s s.ip = some 1#17) ∧
      (let s := prog [0x5B#8]
       s.p.toNat < s.inst.tapeLen ∧ s.tape.read s.p.toNat = 0#8 ∧ matchClose s s.ip = none) ∧
      (let s : State := { prog [0x5B#8] with tape := [(0, 1#8)], inst := ⟨30000, 65536, 1⟩ }
       s.p.toNat < s.inst.tapeLen ∧ s.tape.read s.p.toNat ≠ 0#8 ∧ s.ls.length < s.inst.lsDepth) ∧
      (let s : State := { prog [0x5B#8] with tape := [(0, 1#8)], inst := ⟨30000, 65536, 1⟩, ls := [0#17] }
       s.p.toNat < s.inst.tapeLen ∧ s.tape.read s.p.toNat ≠ 0#8 ∧ s.ls.length = s.inst.lsDepth) ∧
      State.reset.ip = 0 := by decide

/-- `+[-]` after its `[` (V-L14): `ip = 2`, `ls = [1]`, cell 0 holding 1. -/
def inLoop : State :=
  { prog [0x2B#8, 0x5B#8, 0x2D#8, 0x5D#8] with ip := 2#17, ls := [1#17], tape := [(0, 1#8)] }

/-- What holds of the one entry holds of all of `ls`. -/
theorem inLoop_ls (q : IAddr → Prop) (h : q 1#17) : ∀ e ∈ inLoop.ls, q e := by
  intro e he
  obtain rfl : e = 1#17 := by simpa [inLoop] using he
  exact h

theorem inLoop_inv : Inv inLoop where
  memories := ⟨by decide, by decide, by decide, by decide, by decide, by decide⟩
  indexes := ⟨by decide, by decide, fun h => absurd h (by decide)⟩
  stack := ⟨by simp [inLoop], inLoop_ls (fun e => e.toNat < inLoop.ip.toNat) (by decide),
    inLoop_ls (fun e => 1 ≤ e.toNat) (by decide),
    inLoop_ls (fun e => programWord inLoop e.toNat = some opOpen) (by decide),
    by simp [inLoop, prog, loadedWords, State.reset, Config.engine]⟩
  record := ⟨by decide, fun _ => by decide, fun h => absurd h (by decide), fun h => absurd h (by decide),
    fun h => absurd h (by decide)⟩

theorem witness_CloseReturnsToOpen :
    State.reset.ls = [] ∧ Inv inLoop ∧ inLoop.ls = 1#17 :: [] := ⟨by decide, inLoop_inv, by decide⟩

/-- Two programs that agree after address 0. -/
theorem witness_MatchCloseOnlyReadsProgram :
    (prog [0x5B#8, 0x5D#8]).progLen = (prog [0x61#8, 0x5D#8]).progLen ∧
      ∀ a, (0#17).toNat < a → a < (prog [0x5B#8, 0x5D#8]).progLen.toNat →
        (prog [0x5B#8, 0x5D#8]).imem.read a = (prog [0x61#8, 0x5D#8]).imem.read a := by
  refine ⟨by decide, fun a h1 h2 => ?_⟩
  have h3 : a < 2 := h2
  have h4 : 0 < a := h1
  obtain rfl : a = 1 := by omega
  decide

theorem witness_EveryInstructionFrame :
    (nextOf (exec .inc State.reset)).isSome = true ∧ accessesTape .closeLoop = false ∧
      State.reset.p.toNat < State.reset.inst.tapeLen := by decide

theorem witness_MemReadAndMemWrite :
    (29999#15).toNat < State.reset.inst.tapeLen ∧ (memWrite 29999#15 7#8 State.reset).isSome = true ∧
      State.reset.inst.tapeLen ≤ (30000#15).toNat := by decide

/-- `[.` from reset (S8): a step from Running to Faulted. -/
theorem witness_FaultEntryIsPrecise :
    (prog [0x5B#8, 0x2E#8]).status ≠ .faulted ∧
      (nextOf (step (prog [0x5B#8, 0x2E#8]))).map (·.status) = some .faulted := by decide

/-- Each of the three faults is raised from a running state. -/
theorem witness_FaultsExactly :
    (prog [0x5B#8]).status = .running ∧
      (record (exec .openLoop (prog [0x5B#8]))).map (·.2.1) = some 1 ∧
      (record (exec .inc { State.reset with p := 30000#15 })).map (·.2.1) = some 2 ∧
      (record (exec .openLoop { State.reset with
        tape := [(0, 1#8)], inst := ⟨30000, 65536, 1⟩, ls := [0#17] })).map (·.2.1) = some 3 := by decide

/-- The last word of a program. -/
theorem witness_StepRunsFetchedWord :
    let s : State := { prog [0x2B#8, 0x2E#8] with ip := 1#17 }
    s.resetHeld = false ∧ s.status = .running ∧ s.ip.toNat < s.progLen.toNat := by decide

theorem witness_PlacedWordRunsNext :
    State.reset.ip.toNat + 1 < 2 ^ 17 ∧ ({ State.reset with ip := 131070#17 } : State).ip.toNat + 1 < 2 ^ 17 := by decide

theorem reset_inv : Inv State.reset where
  memories := ⟨by decide, by decide, by decide, by decide, by decide, by decide⟩
  indexes := ⟨by decide, by decide, fun _ => by decide⟩
  stack := ⟨by simp [State.reset], by simp [State.reset], by simp [State.reset], by simp [State.reset], by simp [State.reset]⟩
  record := ⟨by decide, fun _ => by decide, fun h => absurd h (by decide), fun _ => by decide,
    fun h => absurd h (by decide)⟩

theorem witness_HaltIsAStepOfItsOwn :
    State.reset.resetHeld = false ∧ State.reset.status = .running ∧
      State.reset.progLen.toNat ≤ State.reset.ip.toNat ∧ Inv State.reset ∧ State.reset.progLen = 0 :=
  ⟨by decide, by decide, by decide, reset_inv, by decide⟩

theorem witness_TerminalUntilReset :
    ({ State.reset with status := .halted } : State).status = .halted ∧
      ({ State.reset with status := .faulted } : State).status = .faulted ∧
      (applyReset State.reset).resetHeld = true ∧ ended { State.reset with status := .halted } = true ∧
      (nextOf (hostStep (.loadInput [1#8]) { State.reset with status := .halted })).isSome = true ∧
      HostAction.loadInput [1#8] ≠ .applyReset := by decide

theorem witness_StepAlwaysHasAnOutcome :
    State.reset.status = .running ∧ State.reset.resetHeld = false ∧
      (nextOf (step (prog [0x5B#8]))).map (·.status) = some .faulted := by decide

/-- One state per row of R94's table. -/
theorem witness_AdvanceTable :
    State.reset.status = .running ∧
      (nextOf (exec .right State.reset)).map (·.status) = some .running ∧
      (nextOf (exec .openLoop (prog [0x5B#8, 0x5D#8]))).map (·.status) = some .running ∧
      (nextOf (exec .openLoop inLoop)).map (·.status) = some .running ∧ inLoop.tape.read inLoop.p.toNat ≠ 0#8 ∧
      (nextOf (exec .closeLoop State.reset)).map (·.status) = some .running ∧
      inLoop.ls = 1#17 :: [] ∧ inLoop.ip.toNat < inLoop.progLen.toNat ∧
      (nextOf (exec .inc { State.reset with p := 30000#15 })).map (·.status) = some .faulted := by decide

theorem witness_ProgramIsImmutable :
    (nextOf (step inLoop)).isSome = true ∧ inLoop.resetHeld = false ∧
      (nextOf (hostStep (.loadProgram [0x2B#8]) inLoop)).isSome = true := by decide

theorem witness_WordsPastProgramAreIrrelevant :
    (∀ a, a < (prog [0x2B#8]).progLen.toNat →
        Memory.read [(0, 0x2B#8), (1, 0x5B#8)] a = (prog [0x2B#8]).imem.read a) ∧
      (nextOf (step (prog [0x2B#8]))).isSome = true := by
  refine ⟨fun a h => ?_, by decide⟩
  have h3 : a < 1 := h
  obtain rfl : a = 0 := by omega
  decide

theorem witness_InputOnlyReachesComma :
    Instr.output ≠ .input ∧ (nextOf (exec .output State.reset)).isSome = true := by decide

/-- A second instance: the smallest of each size. -/
theorem witness_ResetMeetsInvariant : (Config.Params.mk 1 1 1).wf = true := by decide

theorem witness_StepKeepsInvariant : Inv inLoop ∧ (nextOf (step inLoop)).isSome = true :=
  ⟨inLoop_inv, by decide⟩

theorem witness_HostKeepsInvariant : Inv inLoop ∧ (nextOf (hostStep .applyReset inLoop)).isSome = true :=
  ⟨inLoop_inv, by decide⟩

/-- `+[-]` loaded under reset, released, and run to the state inside its loop. -/
theorem inLoop_reachable : Reachable inLoop := by
  have h0 := Reachable.reset Config.engine (by decide)
  have h1 := Reachable.host _ _ .applyReset h0 rfl
  have h2 := Reachable.host _ _ (.loadProgram [0x2B#8, 0x5B#8, 0x2D#8, 0x5D#8]) h1 rfl
  have h3 := Reachable.host _ _ .releaseReset h2 rfl
  have h4 := Reachable.engine _ _ h3 rfl
  exact Reachable.engine _ _ h4 rfl

theorem witness_ReachableStateFacts :
    Reachable inLoop ∧ inLoop.ls ≠ [] ∧ inLoop.status = .running ∧ (nextOf (step inLoop)).isSome = true :=
  ⟨inLoop_reachable, by decide, by decide, by decide⟩

theorem witness_LoopStackNeverOverflows :
    Reachable inLoop ∧ inLoop.inst.lsDepth = inLoop.inst.imemDepth ∧ inLoop.progLen ≠ 0 :=
  ⟨inLoop_reachable, by decide, by decide⟩

theorem inLoop_word (a : Nat) (w : Byte) (h : holdsWord inLoop a w) : a < 4 ∧ inLoop.imem.read a = w := by
  simp only [holdsWord, programWord] at h
  split at h
  · next ha => exact ⟨ha, Option.some.inj h⟩
  · cases h

/-- `+[-]` is balanced: its `[` at 1 and its `]` at 3 are partners. -/
theorem inLoop_balanced : BalancedProgram inLoop where
  opens := fun o h => by
    obtain ⟨ho, hw⟩ := inLoop_word o _ h
    interval_cases o
    · exact absurd hw (by decide)
    · exact ⟨3, by unfold pairs; decide⟩
    · exact absurd hw (by decide)
    · exact absurd hw (by decide)
  closes := fun c h => by
    obtain ⟨hc, hw⟩ := inLoop_word c _ h
    interval_cases c
    · exact absurd hw (by decide)
    · exact absurd hw (by decide)
    · exact absurd hw (by decide)
    · refine ⟨1, ⟨by unfold holdsWord; decide, by unfold pairs; decide⟩, fun o ⟨ho, _⟩ => ?_⟩
      obtain ⟨ho', hw'⟩ := inLoop_word o _ ho
      interval_cases o
      · exact absurd hw' (by decide)
      · rfl
      · exact absurd hw' (by decide)
      · exact absurd hw' (by decide)

/-- Inside its loop the one entry, 1, is the one bracket that encloses `ip` = 2. -/
theorem inLoop_encloses : StackEncloses inLoop where
  falling := by simp [inLoop]
  exact := fun o => by
    constructor
    · rintro ⟨e, he, rfl⟩
      obtain rfl : e = 1#17 := by simpa [inLoop] using he
      exact ⟨by unfold holdsWord; decide, by decide, 3, by unfold pairs; decide, by decide⟩
    · rintro ⟨ho, hlt, _⟩
      obtain ⟨ho', hw⟩ := inLoop_word o _ ho
      interval_cases o
      · exact absurd hw (by decide)
      · exact ⟨1#17, by decide, by decide⟩
      · exact absurd hw (by decide)
      · exact absurd hw (by decide)

/-- The same program after its normal halt. -/
def afterLoop : State := { inLoop with ip := 4#17, ls := [], tape := [], status := .halted }

theorem afterLoop_inv : Inv afterLoop where
  memories := ⟨by decide, by decide, by decide, by decide, by decide, by decide⟩
  indexes := ⟨by decide, by decide, fun h => absurd h (by decide)⟩
  stack := ⟨by simp [afterLoop], by simp [afterLoop], by simp [afterLoop], by simp [afterLoop],
    by simp [afterLoop]⟩
  record := ⟨by decide, fun _ => by decide, fun h => absurd h (by decide), fun _ => by decide,
    fun h => absurd h (by decide)⟩

theorem afterLoop_encloses : StackEncloses afterLoop where
  falling := by simp [afterLoop]
  exact := fun o => by
    constructor
    · rintro ⟨e, he, _⟩
      simp [afterLoop] at he
    · rintro ⟨ho, _, c, hp, hc⟩
      have h4 : o < 4 := (inLoop_word o _ ho).1
      have h1 : c < o + 1 + (4 - (o + 1)) := (scanClose_some _ _ _ _ _ hp).2.1
      have h2 : 4 ≤ c := hc
      omega

theorem witness_BalancedLoopsKeepEnclosingStack :
    Inv inLoop ∧ BalancedProgram inLoop ∧ StackEncloses inLoop ∧ (nextOf (step inLoop)).isSome = true :=
  ⟨inLoop_inv, inLoop_balanced, inLoop_encloses, by decide⟩

/-- The three clauses: at the `]`, in a running state, and after the normal halt. -/
theorem witness_BalancedBracketsPairUp :
    Inv inLoop ∧ BalancedProgram inLoop ∧ StackEncloses inLoop ∧ inLoop.status = .running ∧
      (nextOf (step inLoop)).map (fun t => (nextInstr t, decide (t.ip.toNat < t.progLen.toNat))) =
        some (.closeLoop, true) ∧
      Inv afterLoop ∧ BalancedProgram afterLoop ∧ StackEncloses afterLoop ∧ afterLoop.status = .halted :=
  ⟨inLoop_inv, inLoop_balanced, inLoop_encloses, by decide, by decide, afterLoop_inv,
    ⟨inLoop_balanced.opens, inLoop_balanced.closes⟩, afterLoop_encloses, by decide⟩

theorem witness_ReachableBalancedStack : Reachable inLoop ∧ BalancedProgram inLoop :=
  ⟨inLoop_reachable, inLoop_balanced⟩

/-- `+[-]` at its `[`, not yet entered, with cell 0 holding what `m` says. -/
def atOpen (m : Memory) : State := { inLoop with ip := 1#17, ls := [], tape := m }

/-- `+[-]` at its `]`, inside the loop. -/
def atClose (m : Memory) : State := { inLoop with ip := 3#17, tape := m }

theorem atOpen_inv (m : Memory) (h : Memory.wf m = true) (hb : Memory.below m 30000 = true) : Inv (atOpen m) where
  memories := ⟨inLoop_inv.memories.inst, h, hb, inLoop_inv.memories.imemWf, inLoop_inv.memories.imemBelow,
    inLoop_inv.memories.progLen⟩
  indexes := ⟨inLoop_inv.indexes.pointer, (by decide : 1 ≤ 4), fun h => absurd h (by decide : ¬ 1#17 = 0)⟩
  stack := ⟨by simp [atOpen], by simp [atOpen], by simp [atOpen], by simp [atOpen], by simp [atOpen]⟩
  record := ⟨inLoop_inv.record.cause, inLoop_inv.record.position,
    fun h => absurd h (by decide : Status.running ≠ .faulted), fun h => absurd h (by decide : Status.running ≠ .halted),
    fun h => absurd h (by decide : false ≠ true)⟩

theorem atClose_inv (m : Memory) (h : Memory.wf m = true) (hb : Memory.below m 30000 = true) : Inv (atClose m) where
  memories := ⟨inLoop_inv.memories.inst, h, hb, inLoop_inv.memories.imemWf, inLoop_inv.memories.imemBelow,
    inLoop_inv.memories.progLen⟩
  indexes := ⟨inLoop_inv.indexes.pointer, (by decide : 3 ≤ 4), fun h => absurd h (by decide : ¬ 3#17 = 0)⟩
  stack := ⟨inLoop_inv.stack.falling, inLoop_ls (fun e => e.toNat < 3) (by decide), inLoop_inv.stack.positive,
    inLoop_inv.stack.bracket, inLoop_inv.stack.capacity⟩
  record := ⟨inLoop_inv.record.cause, inLoop_inv.record.position,
    fun h => absurd h (by decide : Status.running ≠ .faulted), fun h => absurd h (by decide : Status.running ≠ .halted),
    fun h => absurd h (by decide : false ≠ true)⟩

theorem atOpen_encloses (m : Memory) : StackEncloses (atOpen m) where
  falling := by simp [atOpen]
  exact := fun o => by
    constructor
    · rintro ⟨e, he, _⟩
      simp [atOpen] at he
    · rintro ⟨ho, hlt, _⟩
      have h0 : o < 1 := hlt
      obtain rfl : o = 0 := by omega
      exact absurd (inLoop_word 0 _ ho).2 (by decide)

/-- `ip` = 3 is inside the loop as `ip` = 2 is: 3 is the match, and the word at 2 is no bracket. -/
theorem atClose_encloses (m : Memory) : StackEncloses (atClose m) where
  falling := inLoop_encloses.falling
  exact := fun o => by
    constructor
    · rintro h
      obtain ⟨ho, hlt, -⟩ := (inLoop_encloses.exact o).mp h
      have h2 : o < 2 := hlt
      interval_cases o
      · exact absurd (inLoop_word 0 _ ho).2 (by decide)
      · exact ⟨ho, (by decide : 1 < 3), 3, (by unfold pairs; decide : pairs inLoop 1 3), (by decide : 3 ≤ 3)⟩
    · rintro ⟨ho, hlt, c, hp, hc⟩
      refine (inLoop_encloses.exact o).mpr ⟨ho, ?_, c, hp, le_trans (by decide : 2 ≤ 3) hc⟩
      have h3 : o < 3 := hlt
      interval_cases o
      · decide
      · decide
      · exact absurd (inLoop_word 2 _ ho).2 (by decide)

/-- The three clauses, with the cell zero and non-zero: at the `[` with room on the stack, and at the `]`. -/
theorem witness_BalancedBodyRunsWhileNonZero :
    (∀ m : Memory, m ∈ [[], [(0, 1#8)]] → Inv (atOpen m) ∧ Inv (atClose m) ∧ BalancedProgram (atOpen m) ∧
      BalancedProgram (atClose m) ∧ StackEncloses (atOpen m) ∧ StackEncloses (atClose m)) ∧
    (atOpen []).status = .running ∧ (atClose []).resetHeld = false ∧ (atClose []).ip.toNat < (atClose []).progLen.toNat ∧
    (atOpen []).p.toNat < (atOpen []).inst.tapeLen ∧ nextInstr (atOpen []) = .openLoop ∧
    nextInstr (atClose []) = .closeLoop ∧ (atOpen []).ls.length < (atOpen []).inst.lsDepth ∧
    (atOpen []).tape.read 0 = 0#8 ∧ (atOpen [(0, 1#8)]).tape.read 0 ≠ 0#8 := by
  refine ⟨fun m hm => ?_, by decide, by decide, by decide, by decide, by decide, by decide, by decide, by decide,
    by decide⟩
  have hw : Memory.wf m = true ∧ Memory.below m 30000 = true := by
    simp only [List.mem_cons, List.not_mem_nil, or_false] at hm
    rcases hm with rfl | rfl <;> decide
  exact ⟨atOpen_inv m hw.1 hw.2, atClose_inv m hw.1 hw.2, ⟨inLoop_balanced.opens, inLoop_balanced.closes⟩,
    ⟨inLoop_balanced.opens, inLoop_balanced.closes⟩, atOpen_encloses m, atClose_encloses m⟩

/-- Not under reset, under reset with room, and under reset with one word too many. -/
theorem witness_LoadOnlyUnderReset :
    State.reset.inst.wf = true ∧ State.reset.resetHeld = false ∧ (applyReset State.reset).resetHeld = true ∧
      (let s : State := { applyReset State.reset with inst := ⟨1, 1, 1⟩ }
       s.inst.wf = true ∧ s.resetHeld = true ∧ [0x2B#8].length ≤ s.inst.imemDepth ∧
         s.inst.imemDepth < [0x2B#8, 0x2B#8].length) := by decide

theorem witness_BootGivesResetState :
    (Config.Params.mk 1 1 1).wf = true ∧
      (strip Config.isSpace [0x20#8, 0x2B#8]).length ≤ (Config.Params.mk 1 1 1).imemDepth ∧
      (Config.Params.mk 1 1 1).imemDepth < (strip Config.isSpace [0x2B#8, 0x2B#8]).length := by decide

theorem witness_TrimTakesBothEnds :
    (trim Config.isSpace [32#8, 72#8, 10#8]).head? = some 72#8 ∧
      (trim Config.isSpace [32#8, 72#8, 10#8]).getLast? = some 72#8 ∧
      (∀ b ∈ [32#8, 12#8], Config.isSpace b = true) ∧ ended afterLoop = true ∧ ended inLoop = false := by decide

/-- V-IO1: the program `.` returns the one byte 0. -/
theorem witness_RunResultIsDetermined :
    State.reset.inst = State.reset.inst ∧ Executes Config.isSpace [0x2E#8] [] [] State.reset [0#8] :=
  ⟨rfl, _, _, 2, rfl, rfl, by decide⟩

end Sys2Proof.Tests
end

section
/-! PROOFS. The statements about the state (10_state.md): what every instruction, every step and every action of the
host changes and leaves unchanged, the invariant, and what follows for reachable states and whole runs. -/

namespace Sys2Proof.Machine

/-! ## What `Effect` says about each piece of state -/

section EffectFacts

variable {s t : State} {i : Instr}

/-- Nothing an instruction does touches the program, the built-in constants or the reset line (R25). -/
theorem Effect.program_frame (e : Effect s i t) :
    t.imem = s.imem ∧ t.progLen = s.progLen ∧ t.inst = s.inst ∧ t.resetHeld = s.resetHeld := by
  cases e <;> exact ⟨rfl, rfl, rfl, rfl⟩

theorem Effect.p_cases (e : Effect s i t) :
    t.p = s.p ∨ i = .right ∧ t.p = movedRight s.inst.tapeLen s.p ∨ i = .left ∧ t.p = movedLeft s.inst.tapeLen s.p := by
  cases e with
  | right => exact .inr (.inl ⟨rfl, rfl⟩)
  | left => exact .inr (.inr ⟨rfl, rfl⟩)
  | _ => exact .inl rfl

/-- A cell changes by one write at the pointer, which then is on the tape. -/
theorem Effect.tape_cases (e : Effect s i t) :
    t.tape = s.tape ∨ (i = .inc ∨ i = .dec ∨ i = .input) ∧ s.p.toNat < s.inst.tapeLen ∧
      ∃ v, t.tape = s.tape.write s.p.toNat v := by
  cases e with
  | inc hp => exact .inr ⟨.inl rfl, hp, _, rfl⟩
  | dec hp => exact .inr ⟨.inr (.inl rfl), hp, _, rfl⟩
  | buffered b rest hp => exact .inr ⟨.inr (.inr rfl), hp, b, rfl⟩
  | answered b x rest hp => exact .inr ⟨.inr (.inr rfl), hp, b, rfl⟩
  | _ => exact .inl rfl

theorem Effect.ls_frame (e : Effect s i t) (ho : i ≠ .openLoop) (hc : i ≠ .closeLoop) : t.ls = s.ls := by
  cases e with
  | enter => exact absurd rfl ho
  | closePop => exact absurd rfl hc
  | _ => rfl

theorem Effect.out_cases (e : Effect s i t) :
    t.out = s.out ∨ i = .output ∧ t.out = s.out ++ [s.tape.read s.p.toNat] := by
  cases e with
  | output hp => exact .inr ⟨rfl, rfl⟩
  | _ => exact .inl rfl

/-- Input is taken from the front of one of the two sources, by `,` alone. -/
theorem Effect.input_cases (e : Effect s i t) :
    (t.inbuf = s.inbuf ∧ t.inAnswers = s.inAnswers) ∨
      (i = .input ∧ (∃ b, s.inbuf = b :: t.inbuf) ∧ t.inAnswers = s.inAnswers) ∨
      (i = .input ∧ s.inbuf = [] ∧ t.inbuf = [] ∧ ∃ x, s.inAnswers = x :: t.inAnswers) := by
  cases e with
  | buffered b rest hp hb => exact .inr (.inl ⟨rfl, ⟨b, hb⟩, rfl⟩)
  | answered b x rest hp hb ha => exact .inr (.inr ⟨rfl, hb, hb, x, ha⟩)
  | _ => exact .inl ⟨rfl, rfl⟩

/-- The record changes by a fault entry alone (R166): off the tape, or in one of the two faults of `[`. -/
theorem Effect.record_cases (e : Effect s i t) :
    (t.status = s.status ∧ t.fcause = s.fcause ∧ t.fpos = s.fpos) ∨
      ∃ c, c ≠ .noFault ∧ accessesTape i = true ∧ (s.inst.tapeLen ≤ s.p.toNat ∨ i = .openLoop) ∧
        t = enterFault c s := by
  cases e with
  | offTape i ha hp => exact .inr ⟨_, by decide, ha, .inl hp, rfl⟩
  | unmatched => exact .inr ⟨_, by decide, rfl, .inr rfl, rfl⟩
  | overflow => exact .inr ⟨_, by decide, rfl, .inr rfl, rfl⟩
  | _ => exact .inl ⟨rfl, rfl, rfl⟩

/-- The four ways control moves from inside the program: it stays with the pointer and the tape as they are (a fault or
a held `,`), goes forward, enters a loop body, or returns to the `[` on top of the loop stack. -/
theorem Effect.flow_cases (e : Effect s i t) (hip : s.ip.toNat < s.progLen.toNat) :
    (t.ip = s.ip ∧ t.p = s.p ∧ t.tape = s.tape ∧ t.ls = s.ls) ∨
      (s.ip.toNat < t.ip.toNat ∧ t.ip.toNat ≤ s.progLen.toNat ∧ t.ls = s.ls) ∨
      (i = .openLoop ∧ s.tape.read s.p.toNat ≠ 0#8 ∧ s.ls.length < s.inst.lsDepth ∧
        t.ip.toNat = s.ip.toNat + 1 ∧ t.ls = s.ip :: s.ls) ∨
      s.ls = t.ip :: t.ls := by
  have succ := ip_succ_toNat s hip
  have forward : s.ip.toNat < (s.ip + 1#17).toNat ∧ (s.ip + 1#17).toNat ≤ s.progLen.toNat := by omega
  cases e with
  | offTape | held | unmatched | overflow => exact .inl ⟨rfl, rfl, rfl, rfl⟩
  | skip m hp hz hm =>
    obtain ⟨hlt, hlen, -, -⟩ := matchClose_some s s.ip m hm
    have hsucc : (m + 1#17).toNat = m.toNat + 1 := ip_succ_toNat (setIp m s) hlen
    exact .inr (.inl ⟨by rw [setIp_ip]; omega, by rw [setIp_ip]; omega, rfl⟩)
  | enter hp hz hd => exact .inr (.inr (.inl ⟨rfl, hz, hd, succ, rfl⟩))
  | closePop k rest hl => exact .inr (.inr (.inr hl))
  | _ => exact .inr (.inl ⟨forward.1, forward.2, rfl⟩)

end EffectFacts

/-! ## The frame of every instruction, and of every step -/

/-- Settles O20: each clause is one of the facts `Effect` gives about that piece of state. -/
theorem everyInstructionFrame : Obligations.EveryInstructionFrame := by
  intro i s t h
  have e := exec_effect i s t h
  obtain ⟨himem, hprogLen, hinst, hreset⟩ := e.program_frame
  refine ⟨fun hr hl => ?p, e.ls_frame, fun ho => ?out, fun hi => ?input, fun hinc hdec hin a => ?tape, fun a ha => ?cell,
    fun hacc => ?noAccess, fun hp ho => ?onTape, fun a => by rw [himem], hprogLen, hinst, hreset⟩
  case p =>
    rcases e.p_cases with hp | ⟨rfl, -⟩ | ⟨rfl, -⟩
    · exact hp
    · exact absurd rfl hr
    · exact absurd rfl hl
  case out =>
    rcases e.out_cases with hout | ⟨rfl, -⟩
    · exact hout
    · exact absurd rfl ho
  case input =>
    rcases e.input_cases with hsame | ⟨rfl, -⟩ | ⟨rfl, -⟩
    · exact hsame
    · exact absurd rfl hi
    · exact absurd rfl hi
  case tape =>
    rcases e.tape_cases with ht | ⟨rfl | rfl | rfl, -⟩
    · rw [ht]
    · exact absurd rfl hinc
    · exact absurd rfl hdec
    · exact absurd rfl hin
  case cell =>
    rcases e.tape_cases with ht | ⟨-, -, v, ht⟩
    · rw [ht]
    · rw [ht, Memory.read_write]; exact if_neg ha
  case noAccess =>
    rcases e.record_cases with hsame | ⟨c, -, hacc', -⟩
    · exact hsame
    · rw [hacc] at hacc'; cases hacc'
  case onTape =>
    rcases e.record_cases with hsame | ⟨c, -, -, hoff | hopen, -⟩
    · exact hsame
    · omega
    · exact absurd hopen ho

theorem step_idle (s : State) (h : idle s = true) : step s = .next s := by
  simp [step, h]

theorem step_past_end (s : State) (hidle : idle s = false) (hip : s.progLen.toNat ≤ s.ip.toNat) :
    step s = .next (halt s) := by
  simp [step, hidle, pastEnd, hip]

theorem step_inside (s : State) (hidle : idle s = false) (hip : s.ip.toNat < s.progLen.toNat) :
    step s = exec (nextInstr s) s := by
  simp [step, hidle, pastEnd, hip]

/-- Everything a step that answers `t` can do: nothing, the halt, or the effect of the instruction at `ip`. -/
theorem step_next_cases (s t : State) (h : step s = .next t) :
    (idle s = true ∧ t = s) ∨
      (idle s = false ∧ s.progLen.toNat ≤ s.ip.toNat ∧ t = halt s) ∨
      (idle s = false ∧ s.ip.toNat < s.progLen.toNat ∧ Effect s (nextInstr s) t) := by
  rcases step_cases s with ⟨hi, e⟩ | ⟨hi, hp, e⟩ | ⟨hi, hp, e⟩ <;> rw [e] at h
  · cases h; exact .inl ⟨hi, rfl⟩
  · cases h; exact .inr (.inl ⟨hi, hp, rfl⟩)
  · exact .inr (.inr ⟨hi, hp, exec_effect _ _ _ h⟩)

theorem step_program_frame (s t : State) (h : step s = .next t) :
    t.imem = s.imem ∧ t.progLen = s.progLen ∧ t.inst = s.inst ∧ t.resetHeld = s.resetHeld := by
  rcases step_next_cases s t h with ⟨-, rfl⟩ | ⟨-, -, rfl⟩ | ⟨-, -, e⟩
  · exact ⟨rfl, rfl, rfl, rfl⟩
  · exact ⟨rfl, rfl, rfl, rfl⟩
  · exact e.program_frame

/-- R39 (f): a step only appends to `out` and only takes from the front of `inbuf`. -/
theorem step_out_inbuf (s t : State) (h : step s = .next t) : s.out <+: t.out ∧ t.inbuf <:+ s.inbuf := by
  rcases step_next_cases s t h with ⟨-, rfl⟩ | ⟨-, -, rfl⟩ | ⟨-, -, e⟩
  · exact ⟨List.prefix_rfl, List.suffix_rfl⟩
  · exact ⟨List.prefix_rfl, List.suffix_rfl⟩
  · constructor
    · rcases e.out_cases with ho | ⟨-, ho⟩ <;> rw [ho]
      exact List.prefix_append _ _
    · rcases e.input_cases with ⟨hb, -⟩ | ⟨-, ⟨b, hb⟩, -⟩ | ⟨-, hs, ht, -⟩
      · rw [hb]
      · rw [hb]; exact List.suffix_cons _ _
      · rw [hs, ht]

/-! ## The actions of the host -/

theorem loadProgram_not_held (ws : List Byte) (s : State) (h : s.resetHeld = false) : loadProgram ws s = .next s := by
  simp [loadProgram, h]

theorem loadProgram_held (ws : List Byte) (s : State) (h : s.resetHeld = true) :
    loadProgram ws s =
      if ws.length ≤ s.inst.imemDepth then .next (loadedWords ws s) else .refused .programTooLong := by
  simp [loadProgram, h]

theorem loadInput_not_held (bs : List Byte) (s : State) (h : s.resetHeld = false) : loadInput bs s = s := by
  simp [loadInput, h]

theorem loadInput_held (bs : List Byte) (s : State) (h : s.resetHeld = true) : loadInput bs s = setInbuf bs s := by
  simp [loadInput, h]

theorem answerPoll_pending (x : PollAnswer) (s : State) (h : pollPending s = true) :
    answerPoll x s = setInAnswers [x] s := by
  simp [answerPoll, h]

theorem answerPoll_not_pending (x : PollAnswer) (s : State) (h : pollPending s = false) : answerPoll x s = s := by
  simp [answerPoll, h]

/-- The loaded words read back, and every word at or past their number is as it was. -/
theorem loadedWords_read (ws : List Byte) (s : State) (a : Nat) :
    (loadedWords ws s).imem.read a = if h : a < ws.length then ws[a] else s.imem.read a := by
  simp [loadedWords, Memory.read_writeFrom]

/-- `prog_len` holds the number of words of a program that fits. -/
theorem loadedWords_progLen_toNat (ws : List Byte) (s : State) (hlen : ws.length ≤ s.inst.imemDepth)
    (hwf : s.inst.wf = true) : (loadedWords ws s).progLen.toNat = ws.length := by
  obtain ⟨-, -, -, hdepth, -⟩ := (params_wf_iff s.inst).mp hwf
  show (BitVec.ofNat 17 ws.length).toNat = ws.length
  rw [BitVec.toNat_ofNat, Nat.mod_eq_of_lt (by omega)]

/-- Settles O13: `answerPoll` looks for an outstanding poll before it takes the answer. -/
theorem unaskedAnswerDoesNothing : Obligations.UnaskedAnswerDoesNothing := by
  intro s x h
  rw [hostStep, answerPoll_not_pending x s h]

/-- Settles O42: the three outcomes of a load, and the read-back of the loaded words. -/
theorem loadOnlyUnderReset : Obligations.LoadOnlyUnderReset := by
  intro s ws bs hwf
  refine ⟨fun hr => ⟨loadProgram_not_held ws s hr, ?_⟩, fun hr hlong => ?_, fun hr => ?_, fun hr hfit => ?_⟩
  · rw [hostStep, loadInput_not_held bs s hr]
  · rw [hostStep, loadProgram_held ws s hr, if_neg (by omega)]
  · rw [hostStep, loadInput_held bs s hr]; rfl
  · refine ⟨loadedWords ws s, ?_, rfl, loadedWords_progLen_toNat ws s hfit hwf, fun a ha => ?_, fun a ha => ?_⟩
    · rw [hostStep, loadProgram_held ws s hr, if_pos hfit]
    · rw [loadedWords_read, dif_pos ha]
    · rw [loadedWords_read, dif_neg (by omega)]

/-- Settles O30: a step by the frame of its effect, an action of the host by its kind; a load does nothing here, since
reset is not applied. -/
theorem programIsImmutable : Obligations.ProgramIsImmutable := by
  refine ⟨fun s t h => ?_, fun s t a hr h => ?_⟩
  · obtain ⟨himem, hprogLen, hinst, -⟩ := step_program_frame s t h
    exact ⟨himem, hprogLen, hinst⟩
  · cases a with
    | loadProgram ws =>
      rw [hostStep, loadProgram_not_held ws s hr] at h
      cases h; exact ⟨rfl, rfl, rfl⟩
    | loadInput bs =>
      rw [hostStep, loadInput_not_held bs s hr] at h
      cases h; exact ⟨rfl, rfl, rfl⟩
    | applyReset | releaseReset => cases h; exact ⟨rfl, rfl, rfl⟩
    | answer x =>
      cases hp : pollPending s with
      | true =>
        rw [hostStep, answerPoll_pending x s hp] at h
        cases h; exact ⟨rfl, rfl, rfl⟩
      | false =>
        rw [hostStep, answerPoll_not_pending x s hp] at h
        cases h; exact ⟨rfl, rfl, rfl⟩

/-! ## The invariant is kept by every step -/

/-- Encoding gives the decoded word back. -/
theorem encode_decode (w : Byte) : encode (decode w) = w := by
  unfold decode
  split_ifs <;> simp [encode, *]

/-- Where the next instruction is `[`, the program has a `[` word. -/
theorem programWord_of_nextInstr_open (s : State) (hip : s.ip.toNat < s.progLen.toNat)
    (h : nextInstr s = .openLoop) : programWord s s.ip.toNat = some opOpen := by
  have hw : fetch s s.ip = opOpen := by
    rw [← encode_decode (fetch s s.ip), ← nextInstr, h, encode]
  rw [programWord, if_pos hip, ← hw, fetch]

section StepKeepsInv

variable {s t : State} {i : Instr}

theorem MemoriesFit.effect (h : MemoriesFit s) (e : Effect s i t) : MemoriesFit t := by
  obtain ⟨himem, hprogLen, hinst, -⟩ := e.program_frame
  have htape : t.tape.wf = true ∧ t.tape.below s.inst.tapeLen = true := by
    rcases e.tape_cases with ht | ⟨-, hp, v, ht⟩ <;> rw [ht]
    · exact ⟨h.tapeWf, h.tapeBelow⟩
    · exact ⟨Memory.wf_write _ _ _ h.tapeWf, Memory.below_write _ _ _ _ hp h.tapeBelow⟩
  constructor
  case inst => rw [hinst]; exact h.inst
  case tapeWf => exact htape.1
  case tapeBelow => rw [hinst]; exact htape.2
  case imemWf => rw [himem]; exact h.imemWf
  case imemBelow => rw [himem, hinst]; exact h.imemBelow
  case progLen => rw [hprogLen, hinst]; exact h.progLen

/-- The pointer stays in `0 … TAPE_LEN` (R39 (a)). -/
theorem Effect.pointer_le (e : Effect s i t) (hw : s.inst.wf = true) (h : s.p.toNat ≤ s.inst.tapeLen) :
    t.p.toNat ≤ s.inst.tapeLen := by
  obtain ⟨-, htape, -⟩ := (params_wf_iff s.inst).mp hw
  rcases e.p_cases with hp | ⟨-, hp⟩ | ⟨-, hp⟩ <;> rw [hp]
  · exact h
  · rw [movedRight_toNat _ _ htape]; split <;> omega
  · rw [movedLeft_toNat _ _ htape]; split <;> omega

/-- No move but staying ends at `ip = 0`: a `]` returns to an address of at least 1. -/
theorem Inv.indexes_of_effect (h : Inv s) (hip : s.ip.toNat < s.progLen.toNat) (e : Effect s i t) : IndexesFit t := by
  obtain ⟨-, hprogLen, hinst, -⟩ := e.program_frame
  have hp := e.pointer_le h.memories.inst h.indexes.pointer
  rw [← hinst] at hp
  have moved (hpos : 1 ≤ t.ip.toNat) (hle : t.ip.toNat ≤ s.progLen.toNat) : IndexesFit t :=
    ⟨hp, hprogLen ▸ hle, fun h0 => by rw [h0] at hpos; cases hpos⟩
  rcases e.flow_cases hip with ⟨hi, hps, ht, -⟩ | ⟨hlt, hle, -⟩ | ⟨-, -, -, hi, -⟩ | hl
  · exact ⟨hp, by rw [hprogLen, hi]; exact h.indexes.ip, by rw [hi, hps, ht]; exact h.indexes.first⟩
  · exact moved (by omega) hle
  · exact moved (by omega) (by omega)
  · have hmem : t.ip ∈ s.ls := hl ▸ List.mem_cons_self
    have hbelow := h.stack.below _ hmem
    exact moved (h.stack.positive _ hmem) (by omega)

/-- R138. A `[` that enters its body is not at address 0, for there the cell is still zero. -/
theorem Inv.stack_of_effect (h : Inv s) (hip : s.ip.toNat < s.progLen.toNat) (e : Effect s (nextInstr s) t) :
    LoopStackFits t := by
  obtain ⟨himem, hprogLen, hinst, -⟩ := e.program_frame
  obtain ⟨falling, below, positive, bracket, capacity⟩ := h.stack
  have word (a : Nat) : programWord t a = programWord s a := by simp only [programWord, himem, hprogLen]
  have same (hl : t.ls = s.ls) (hle : s.ip.toNat ≤ t.ip.toNat) : LoopStackFits t := by
    refine ⟨hl ▸ falling, hl ▸ fun x hx => ?_, hl ▸ positive, ?_, ?_⟩
    · exact Nat.lt_of_lt_of_le (below x hx) hle
    · simp only [hl, word]; exact bracket
    · rw [hl, hinst]; exact capacity
  rcases e.flow_cases hip with ⟨hi, -, -, hl⟩ | ⟨hlt, -, hl⟩ | ⟨hopen, hcell, hroom, hi, hl⟩ | hl
  · exact same hl (by rw [hi])
  · exact same hl (Nat.le_of_lt hlt)
  · have hpos : 1 ≤ s.ip.toNat := by
      by_contra hzero
      have h0 : s.ip = 0 := BitVec.eq_of_toNat_eq (by simp; omega)
      rw [(h.indexes.first h0).2] at hcell
      exact hcell rfl
    constructor <;> simp only [hl, List.forall_mem_cons, word]
    · exact List.pairwise_cons.mpr ⟨below, falling⟩
    · exact ⟨by omega, fun x hx => by have := below x hx; omega⟩
    · exact ⟨hpos, positive⟩
    · exact ⟨programWord_of_nextInstr_open s hip hopen, bracket⟩
    · rw [hinst]; exact hroom
  · rw [hl] at falling positive bracket capacity
    obtain ⟨hunder, hrest⟩ := List.pairwise_cons.mp falling
    constructor
    · exact hrest
    · exact hunder
    · exact fun x hx => positive x (.tail _ hx)
    · exact fun x hx => by rw [word]; exact bracket x (.tail _ hx)
    · rw [hinst]; exact Nat.le_of_succ_le capacity

/-- A running machine has an empty record (R30). -/
theorem RecordFits.running_record (h : RecordFits s) (hrun : s.status = .running) :
    s.fcause = .noFault ∧ s.fpos = 0 := by
  have hnf : s.status ≠ .faulted := by rw [hrun]; decide
  exact ⟨not_not.mp fun hc => hnf (h.cause.mpr hc), h.position hnf⟩

theorem RecordFits.effect (h : RecordFits s) (hidle : idle s = false) (hip : s.ip.toNat < s.progLen.toNat)
    (e : Effect s i t) : RecordFits t := by
  obtain ⟨hreset, hrun⟩ := (idle_eq_false_iff s).mp hidle
  obtain ⟨-, -, -, hreset'⟩ := e.program_frame
  obtain ⟨hcause, hpos⟩ := h.running_record hrun
  rcases e.record_cases with ⟨hs, hc, hf⟩ | ⟨c, hc, -, -, rfl⟩
  · constructor <;> simp [hs, hc, hf, hrun, hcause, hpos, hreset', hreset]
  · constructor <;> simp [hc, hreset, hip]

theorem Inv.effect (h : Inv s) (hidle : idle s = false) (hip : s.ip.toNat < s.progLen.toNat)
    (e : Effect s (nextInstr s) t) : Inv t :=
  ⟨h.memories.effect e, h.indexes_of_effect hip e, h.stack_of_effect hip e, h.record.effect hidle hip e⟩

/-- The halting step (R92): `ip` is then exactly `prog_len`, and nothing but `status` changes. -/
theorem Inv.halt (h : Inv s) (hidle : idle s = false) (hip : s.progLen.toNat ≤ s.ip.toNat) : Inv (halt s) := by
  obtain ⟨hreset, hrun⟩ := (idle_eq_false_iff s).mp hidle
  obtain ⟨hcause, hpos⟩ := h.record.running_record hrun
  have hend : s.ip = s.progLen := BitVec.eq_of_toNat_eq (Nat.le_antisymm h.indexes.ip hip)
  obtain ⟨⟨inst, tapeWf, tapeBelow, imemWf, imemBelow, progLen⟩, ⟨pointer, ip, first⟩,
    ⟨falling, below, positive, bracket, capacity⟩, -⟩ := h
  exact ⟨⟨inst, tapeWf, tapeBelow, imemWf, imemBelow, progLen⟩, ⟨pointer, ip, first⟩,
    ⟨falling, below, positive, bracket, capacity⟩, by constructor <;> simp [hcause, hpos, hend, hreset]⟩

end StepKeepsInv

/-- Settles O34: a step does nothing, halts, or has the effect of one instruction, and each keeps the four parts of the
invariant. -/
theorem stepKeepsInvariant : Obligations.StepKeepsInvariant := by
  intro s t h hs
  rcases step_next_cases s t hs with ⟨-, rfl⟩ | ⟨hidle, hip, rfl⟩ | ⟨hidle, hip, e⟩
  · exact h
  · exact h.halt hidle hip
  · exact h.effect hidle hip e

/-! ## The invariant at reset and under the host's actions -/

/-- R38: at reset nothing has moved, so only the constants need a check. -/
theorem inv_reset_of_wf (c : Config.Params) (hc : c.wf = true) : Inv { State.reset with inst := c } where
  memories := ⟨hc, rfl, rfl, rfl, rfl, Nat.zero_le _⟩
  indexes := ⟨Nat.zero_le _, Nat.le_refl _, fun _ => ⟨rfl, rfl⟩⟩
  stack := by constructor <;> simp [State.reset]
  record := by constructor <;> simp [State.reset]

/-- Settles O33; the default constants meet the parameter table. -/
theorem resetMeetsInvariant : Obligations.ResetMeetsInvariant :=
  ⟨inv_reset_of_wf Config.engine (by decide), inv_reset_of_wf⟩

section HostKeepsInv

variable {s : State}

/-- The invariant says nothing about the input, and about the reset line only what holds while it is applied. -/
theorem Inv.with_input (h : Inv s) (bs : List Byte) (xs : List PollAnswer) (r : Bool)
    (hr : r = true → s.resetHeld = true) : Inv { s with inbuf := bs, inAnswers := xs, resetHeld := r } := by
  obtain ⟨⟨inst, tapeWf, tapeBelow, imemWf, imemBelow, progLen⟩, ⟨pointer, ip, first⟩,
    ⟨falling, below, positive, bracket, capacity⟩, ⟨cause, position, faultHere, haltEnd, underReset⟩⟩ := h
  exact ⟨⟨inst, tapeWf, tapeBelow, imemWf, imemBelow, progLen⟩, ⟨pointer, ip, first⟩,
    ⟨falling, below, positive, bracket, capacity⟩,
    ⟨cause, position, faultHere, haltEnd, fun hheld => underReset (hr hheld)⟩⟩

/-- R191: reset keeps the loaded program and clears the rest. -/
theorem Inv.applyReset (h : Inv s) : Inv (applyReset s) where
  memories := ⟨h.memories.inst, rfl, rfl, h.memories.imemWf, h.memories.imemBelow, h.memories.progLen⟩
  indexes := ⟨Nat.zero_le _, Nat.zero_le _, fun _ => ⟨rfl, rfl⟩⟩
  stack := by constructor <;> simp [Machine.applyReset, State.reset]
  record := by constructor <;> simp [Machine.applyReset, State.reset]

/-- Under reset the loop stack is empty: its entries would lie below `ip = 0`. -/
theorem Inv.ls_eq_nil_of_held (h : Inv s) (hr : s.resetHeld = true) : s.ls = [] := by
  obtain ⟨-, hip, -⟩ := h.record.underReset hr
  refine List.eq_nil_iff_forall_not_mem.mpr fun e he => ?_
  have hlt := h.stack.below e he
  rw [hip] at hlt
  exact Nat.not_lt_zero _ hlt

/-- R33: a load that fits; under reset no other state speaks of the program. -/
theorem Inv.loadedWords (h : Inv s) (ws : List Byte) (hr : s.resetHeld = true)
    (hfit : ws.length ≤ s.inst.imemDepth) : Inv (loadedWords ws s) := by
  obtain ⟨hrun, hip, hout⟩ := h.record.underReset hr
  have hls := h.ls_eq_nil_of_held hr
  obtain ⟨⟨inst, tapeWf, tapeBelow, imemWf, imemBelow, -⟩, ⟨pointer, -, first⟩, -, ⟨cause, position, -, -, -⟩⟩ := h
  refine ⟨⟨inst, tapeWf, tapeBelow, Memory.wf_writeFrom _ _ _ imemWf,
    Memory.below_writeFrom _ _ _ _ ((Nat.zero_add _).le.trans hfit) imemBelow, ?_⟩, ⟨pointer, ?_, first⟩, ?_, ?_⟩
  · rw [loadedWords_progLen_toNat ws s hfit inst]; exact hfit
  · simp [Machine.loadedWords, hip]
  · constructor <;> simp [Machine.loadedWords, hls]
  · refine ⟨cause, position, ?_, ?_, fun _ => ⟨hrun, hip, hout⟩⟩ <;> simp [Machine.loadedWords, hrun]

end HostKeepsInv

/-- Settles O35, by the kind of action. -/
theorem hostKeepsInvariant : Obligations.HostKeepsInvariant := by
  intro s t a h hs
  cases a with
  | applyReset => cases hs; exact h.applyReset
  | loadProgram ws =>
    rw [hostStep] at hs
    cases hr : s.resetHeld with
    | false => rw [loadProgram_not_held ws s hr] at hs; cases hs; exact h
    | true =>
      rw [loadProgram_held ws s hr] at hs
      split at hs
      · next hfit => cases hs; exact h.loadedWords ws hr hfit
      · cases hs
  | loadInput bs =>
    cases hs
    cases hr : s.resetHeld with
    | false => rw [loadInput_not_held bs s hr]; exact h
    | true => rw [loadInput_held bs s hr]; exact h.with_input bs s.inAnswers s.resetHeld id
  | releaseReset => cases hs; exact h.with_input s.inbuf s.inAnswers false (by simp)
  | answer x =>
    cases hs
    cases hp : pollPending s with
    | false => rw [answerPoll_not_pending x s hp]; exact h
    | true => rw [answerPoll_pending x s hp]; exact h.with_input s.inbuf [x] s.resetHeld id

/-! ## Reachable states -/

/-- The induction, once: reset meets the invariant, steps and host actions keep it. -/
theorem Reachable.inv {s : State} (h : Reachable s) : Inv s := by
  induction h with
  | reset c hc => exact inv_reset_of_wf c hc
  | engine s t _ hs ih => exact stepKeepsInvariant s t ih hs
  | host s t a _ hs ih => exact hostKeepsInvariant s t a ih hs

theorem programWord_eq_some {s : State} {a : Nat} {w : Byte} :
    programWord s a = some w ↔ a < s.progLen.toNat ∧ s.imem.read a = w := by
  unfold programWord
  split <;> simp [*]

/-- R138: the entries of the loop stack are distinct `[` words, so there are at most as many entries as such words in
any range that holds them all. -/
theorem LoopStackFits.length_le_countWord {s : State} (h : LoopStackFits s) (lo n : Nat)
    (hrange : ∀ e ∈ s.ls, lo ≤ e.toNat ∧ e.toNat < lo + n) : s.ls.length ≤ countWord s opOpen lo n := by
  have hnodup : (s.ls.map fun e => e.toNat - lo).Nodup := by
    refine List.Pairwise.map _ (fun _ _ hne => hne) (h.falling.imp_of_mem fun {a b} ha hb hlt => ?_)
    have := hrange a ha
    have := hrange b hb
    omega
  have hsub : (s.ls.map fun e => e.toNat - lo) ⊆ (List.range n).filter fun k => s.imem.read (lo + k) == opOpen := by
    intro k hk
    obtain ⟨e, he, rfl⟩ := List.mem_map.mp hk
    obtain ⟨hlo, hhi⟩ := hrange e he
    obtain ⟨-, hword⟩ := programWord_eq_some.mp (h.bracket e he)
    rw [List.mem_filter, List.mem_range, beq_iff_eq, Nat.add_sub_cancel' hlo]
    exact ⟨by omega, hword⟩
  calc s.ls.length = (s.ls.map fun e => e.toNat - lo).length := (List.length_map _).symm
    _ ≤ countWord s opOpen lo n := (hnodup.subperm hsub).length_le

/-- Settles O36: the invariant of reachable states gives each fact, and a step's use of `out` and `inbuf` holds of every
state. -/
theorem reachableStateFacts : Obligations.ReachableStateFacts := by
  intro s hreach
  obtain ⟨-, indexes, stack, record⟩ := hreach.inv
  refine ⟨indexes.pointer, indexes.ip, List.pairwise_reverse.mpr stack.falling, fun e he => ?_,
    stack.length_le_countWord 0 _ fun e he => ?_, record.cause, step_out_inbuf s, fun a => ?_⟩
  · obtain ⟨hlt, hword⟩ := programWord_eq_some.mp (stack.bracket e he)
    exact ⟨stack.positive e he, hlt, hword, fun _ => stack.below e he⟩
  · obtain ⟨hlt, -⟩ := programWord_eq_some.mp (stack.bracket e he)
    omega
  · exact Nat.le_of_lt_succ (s.tape.read a).isLt

/-! ## Port RESULT -/

/-- Settles O45, row by row of the two tables of codes. -/
theorem resultPortCodes : Obligations.ResultPortCodes := by
  intro s
  refine ⟨?_, ?_, rfl, rfl⟩
  · cases hs : s.status <;> simp [resultPort, statusCode, hs]
  · cases hc : s.fcause <;> simp [resultPort, causeCode, hc]

/-! ## The held poll -/

theorem pollPending_iff (s : State) :
    pollPending s = true ↔ idle s = false ∧ s.ip.toNat < s.progLen.toNat ∧ nextInstr s = .input ∧
      s.p.toNat < s.inst.tapeLen ∧ s.inbuf = [] ∧ s.inAnswers = [] := by
  simp [pollPending, and_assoc, ← pastEnd_eq_false_iff, ← offTape_eq_false_iff]

/-- With an instruction at `ip`, a step has a next state, and it is an effect of that instruction. -/
theorem step_has_effect (s : State) (hidle : idle s = false) (hip : s.ip.toNat < s.progLen.toNat) :
    ∃ t, step s = .next t ∧ Effect s (nextInstr s) t := by
  rw [step_inside s hidle hip]
  exact exec_has_effect _ _

/-- R124: a `,` on the tape with neither a byte nor an answer is held. -/
theorem Effect.input_held {s t : State} (e : Effect s .input t) (hp : s.p.toNat < s.inst.tapeLen)
    (hb : s.inbuf = []) (ha : s.inAnswers = []) : t = s := by
  cases e with
  | offTape _ _ hoff => omega
  | held => rfl
  | buffered b rest _ hb' => rw [hb] at hb'; cases hb'
  | answered b x rest _ _ ha' => rw [ha] at ha'; cases ha'

/-- R123: a `,` on the tape with no pre-supplied byte stores the next answer, `EndOfData` as 0. -/
theorem Effect.input_answered {s t : State} {x : PollAnswer} {rest : List PollAnswer} (e : Effect s .input t)
    (hp : s.p.toNat < s.inst.tapeLen) (hb : s.inbuf = []) (ha : s.inAnswers = x :: rest) :
    ∃ b, (x = .byte b ∨ x = .endOfData ∧ b = 0#8) ∧
      t = advance (setTape (s.tape.write s.p.toNat b) (setInAnswers rest s)) := by
  cases e with
  | offTape _ _ hoff => omega
  | held _ _ ha' => rw [ha] at ha'; cases ha'
  | buffered b rest _ hb' => rw [hb] at hb'; cases hb'
  | answered b y rest' _ _ ha' hx =>
    rw [ha] at ha'; cases ha'
    exact ⟨b, hx, rfl⟩

/-- Settles O12: without an answer the `,` is held; the answer is the only thing it then finds, and it stores it. -/
theorem answerEndsTheHold : Obligations.AnswerEndsTheHold := by
  intro s hpending
  obtain ⟨hidle, hip, hin, hp, hb, ha⟩ := (pollPending_iff s).mp hpending
  constructor
  · obtain ⟨t, ht, e⟩ := step_has_effect s hidle hip
    rw [hin] at e
    rw [ht, e.input_held hp hb ha]
  · intro x
    obtain ⟨u, hu, e⟩ := step_has_effect (setInAnswers [x] s) hidle hip
    have hin' : nextInstr (setInAnswers [x] s) = .input := hin
    rw [hin'] at e
    obtain ⟨b, hx, rfl⟩ := e.input_answered hp hb rfl
    have hread (a : Nat) := Memory.read_write s.tape s.p.toNat a b
    refine ⟨setInAnswers [x] s, _, by rw [hostStep, answerPoll_pending x s hpending], hu, ?_, ?_, ?_, ?_⟩
    · show _ = { s with tape := _, ip := _ }
      rw [← ha]; rfl
    · rintro c rfl
      rcases hx with hx | ⟨hx, -⟩ <;> cases hx
      exact (hread _).trans (if_pos rfl)
    · rintro rfl
      rcases hx with hx | ⟨-, rfl⟩
      · cases hx
      · exact (hread _).trans (if_pos rfl)
    · exact fun a hne => (hread a).trans (if_neg hne)

/-! ## What an instruction does not depend on -/

/-- The scan looks at the `n` words from `j` on and at no other. -/
theorem scanClose_congr (m m' : Memory) (n j depth : Nat) (h : ∀ a, j ≤ a → a < j + n → m.read a = m'.read a) :
    scanClose m n j depth = scanClose m' n j depth := by
  induction n generalizing j depth with
  | zero => rfl
  | succ n ih =>
    have hj : m.read j = m'.read j := h j (Nat.le_refl j) (by omega)
    have hrec (d : Nat) : scanClose m n (j + 1) d = scanClose m' n (j + 1) d :=
      ih (j + 1) d fun a h1 h2 => h a (by omega) (by omega)
    simp only [scanClose, hj, hrec]

/-- R133: `MatchClose` depends on nothing but the program's words after `i`. -/
theorem matchClose_congr (s t : State) (i : IAddr) (hlen : s.progLen = t.progLen)
    (h : ∀ a, i.toNat < a → a < s.progLen.toNat → s.imem.read a = t.imem.read a) :
    matchClose s i = matchClose t i := by
  unfold matchClose
  rw [← hlen, scanClose_congr s.imem t.imem _ _ _ fun a h1 h2 => h a (by omega) (by omega)]

/-- The converse of `exec_effect`: the conditions of `Effect` leave each instruction one next state. -/
theorem Effect.exec_eq {s t : State} {i : Instr} (e : Effect s i t) : exec i s = .next t := by
  cases e with
  | right | left | nop => rfl
  | offTape i ha hp =>
    cases i with
    | right | left | closeLoop | nop => cases ha
    | inc => simp [exec, execInc, modifyCell_eq, hp, raise]
    | dec => simp [exec, execDec, modifyCell_eq, hp, raise]
    | output => simp [exec, execOutput, currentCell_eq, hp, raise]
    | input => simp [exec, execInput, effectiveAddr, (offTape_iff s s.p).mpr hp, raise]
    | openLoop => simp [exec, execOpenLoop, currentCell_eq, hp, raise]
  | inc hp => simp [exec, execInc, modifyCell_eq, Nat.not_le.mpr hp]
  | dec hp => simp [exec, execDec, modifyCell_eq, Nat.not_le.mpr hp]
  | output hp => simp [exec, execOutput, currentCell_eq, Nat.not_le.mpr hp, aluResult]
  | held hp hb ha => simp [exec, execInput_on_tape s hp, inNext, inPoll, hb, ha]
  | buffered b rest hp hb =>
    simp [exec, execInput_on_tape s hp, inNext, hb, storeCell_eq, Nat.not_le.mpr hp]
  | answered b x rest hp hb ha hx =>
    rcases hx with rfl | ⟨rfl, rfl⟩ <;>
      simp [exec, execInput_on_tape s hp, inNext, inPoll, hb, ha, storeCell_eq, Nat.not_le.mpr hp]
  | unmatched hp hz hm =>
    simp [exec, execOpenLoop, currentCell_eq, Nat.not_le.mpr hp, (aluTest_iff _).mpr hz, skipLoop, hm, raise]
  | skip m hp hz hm =>
    simp [exec, execOpenLoop, currentCell_eq, Nat.not_le.mpr hp, (aluTest_iff _).mpr hz, skipLoop, hm]
  | overflow hp hz hd =>
    simp [exec, execOpenLoop, currentCell_eq, Nat.not_le.mpr hp, aluTest_iff, hz, enterLoop, pushLoop, hd, raise]
  | enter hp hz hd =>
    simp [exec, execOpenLoop, currentCell_eq, Nat.not_le.mpr hp, aluTest_iff, hz, enterLoop, pushLoop,
      Nat.not_le.mpr hd]
  | closeEmpty hl => simp [exec, execCloseLoop, popLoop, hl]
  | closePop k rest hl => simp [exec, execCloseLoop, popLoop, hl]

section Independence

variable {s t : State} {i : Instr}

/-- Of the program an instruction looks at the words the forward scan of `[` looks at, and no other. -/
theorem Effect.with_imem (e : Effect s i t) (m : Memory) (hm : ∀ a, a < s.progLen.toNat → m.read a = s.imem.read a) :
    Effect { s with imem := m } i { t with imem := m } := by
  have hmatch : matchClose { s with imem := m } s.ip = matchClose s s.ip :=
    matchClose_congr { s with imem := m } s s.ip rfl fun a _ ha => hm a ha
  cases e with
  | right => exact .right
  | left => exact .left
  | nop w => exact .nop w
  | offTape i ha hp => exact .offTape i ha hp
  | inc hp => exact .inc hp
  | dec hp => exact .dec hp
  | output hp => exact .output hp
  | held hp hb ha => exact .held hp hb ha
  | buffered b rest hp hb => exact .buffered b rest hp hb
  | answered b x rest hp hb ha hx => exact .answered b x rest hp hb ha hx
  | unmatched hp hz hn => exact .unmatched hp hz (hmatch.trans hn)
  | skip c hp hz hn => exact .skip c hp hz (hmatch.trans hn)
  | overflow hp hz hd => exact .overflow hp hz hd
  | enter hp hz hd => exact .enter hp hz hd
  | closeEmpty hl => exact .closeEmpty hl
  | closePop k rest hl => exact .closePop k rest hl

/-- No condition of `Effect` but those of `,` is about the input. -/
theorem Effect.with_input (e : Effect s i t) (hi : i ≠ .input) (bs : List Byte) (xs : List PollAnswer) :
    Effect { s with inbuf := bs, inAnswers := xs } i { t with inbuf := bs, inAnswers := xs } := by
  cases e with
  | right => exact .right
  | left => exact .left
  | nop w => exact .nop w
  | offTape i ha hp => exact .offTape i ha hp
  | inc hp => exact .inc hp
  | dec hp => exact .dec hp
  | output hp => exact .output hp
  | held | buffered | answered => exact absurd rfl hi
  | unmatched hp hz hm => exact .unmatched hp hz hm
  | skip c hp hz hm => exact .skip c hp hz hm
  | overflow hp hz hd => exact .overflow hp hz hd
  | enter hp hz hd => exact .enter hp hz hd
  | closeEmpty hl => exact .closeEmpty hl
  | closePop k rest hl => exact .closePop k rest hl

end Independence

/-- Settles O32. -/
theorem inputOnlyReachesComma : Obligations.InputOnlyReachesComma :=
  fun _ _ _ bs xs hi h => ((exec_effect _ _ _ h).with_input hi bs xs).exec_eq

/-- Settles O31: the step fetches a word of the program, and its effect does not look past the program either. -/
theorem wordsPastProgramAreIrrelevant : Obligations.WordsPastProgramAreIrrelevant := by
  intro s t m hm h
  rcases step_next_cases s t h with ⟨hi, rfl⟩ | ⟨hi, hip, rfl⟩ | ⟨hi, hip, e⟩
  · exact step_idle { t with imem := m } hi
  · exact step_past_end { s with imem := m } hi hip
  · have hnext : nextInstr { s with imem := m } = nextInstr s := congrArg decode (hm _ hip)
    rw [step_inside { s with imem := m } hi hip, hnext]
    exact (e.with_imem m hm).exec_eq

/-! ## Runs -/

theorem runFor_succ_next {k : Nat} {s u : State} (h : runFor (k + 1) s = .next u) :
    ∃ t, step s = .next t ∧ runFor k t = .next u := by
  rw [runFor] at h
  split at h
  · next t ht => exact ⟨t, ht, h⟩
  · cases h
  · cases h

theorem runFor_succ_of_step {s t : State} (h : step s = .next t) (k : Nat) : runFor (k + 1) s = runFor k t := by
  rw [runFor, h]

theorem ended_iff (s : State) : ended s = true ↔ s.status = .halted ∨ s.status = .faulted := by
  simp [ended]

/-- R96: no step leaves an ended run. -/
theorem step_of_ended (s : State) (h : ended s = true) : step s = .next s := by
  refine step_idle s ((idle_iff s).mpr (.inr ?_))
  rcases (ended_iff s).mp h with hs | hs <;> rw [hs] <;> decide

theorem runFor_of_ended (s : State) (h : ended s = true) (k : Nat) : runFor k s = .next s := by
  induction k with
  | zero => rfl
  | succ k ih => rw [runFor_succ_of_step (step_of_ended s h), ih]

/-- Two numbers of steps after which one run has ended give the same end. -/
theorem runFor_end_unique {k k' : Nat} {s u u' : State} (h : runFor k s = .next u) (h' : runFor k' s = .next u')
    (hu : ended u = true) (hu' : ended u' = true) : u = u' := by
  induction k generalizing s k' with
  | zero =>
    cases h
    rw [runFor_of_ended _ hu] at h'
    cases h'; rfl
  | succ k ih =>
    cases k' with
    | zero =>
      cases h'
      rw [runFor_of_ended _ hu'] at h
      cases h; rfl
    | succ k' =>
      obtain ⟨t, ht, hrun⟩ := runFor_succ_next h
      rw [runFor_succ_of_step ht] at h'
      exact ih hrun h'

/-- A whole run is the same, but for the instruction memory, with other words past the program. -/
theorem runFor_with_imem {k : Nat} {s u : State} (m : Memory)
    (hm : ∀ a, a < s.progLen.toNat → m.read a = s.imem.read a) (h : runFor k s = .next u) :
    runFor k { s with imem := m } = .next { u with imem := m } := by
  induction k generalizing s with
  | zero => cases h; rfl
  | succ k ih =>
    obtain ⟨t, ht, hrun⟩ := runFor_succ_next h
    obtain ⟨himem, hprogLen, -, -⟩ := step_program_frame s t ht
    rw [runFor_succ_of_step (wordsPastProgramAreIrrelevant s t m hm ht)]
    exact ih (by rw [himem, hprogLen]; exact hm) hrun

theorem returnedText_eq_some {isSpace : Byte → Bool} {s : State} {r : List Byte} :
    returnedText isSpace s = some r ↔ ended s = true ∧ trim isSpace s.out = r := by
  unfold returnedText
  split <;> simp [*]

/-- The state that booting the stripped program `ws` with `input` gives: reset, but for what LOAD wrote. -/
def booted (ws input : List Byte) (s : State) : State :=
  { State.reset with
    imem := s.imem.writeFrom 0 ws
    progLen := BitVec.ofNat 17 ws.length
    inbuf := input
    inst := s.inst }

theorem boot_eq (isSpace : Byte → Bool) (text input : List Byte) (s : State) :
    boot isSpace text input s =
      if (strip isSpace text).length ≤ s.inst.imemDepth then .next (booted (strip isSpace text) input s)
      else .refused .programTooLong := by
  rw [boot, loadProgram_held _ _ rfl]
  by_cases hfit : (strip isSpace text).length ≤ s.inst.imemDepth
  · rw [if_pos hfit, if_pos (show _ ≤ (applyReset s).inst.imemDepth from hfit)]; rfl
  · rw [if_neg hfit, if_neg (show ¬ _ ≤ (applyReset s).inst.imemDepth from hfit)]

theorem boot_next {isSpace : Byte → Bool} {text input : List Byte} {s t : State}
    (h : boot isSpace text input s = .next t) : t = booted (strip isSpace text) input s := by
  rw [boot_eq] at h
  split at h <;> cases h
  rfl

/-- R37, R198: of the earlier state, only the constants and the words past the program outlast a boot. -/
theorem booted_congr (ws input : List Byte) (s s' : State) (hinst : s.inst = s'.inst) :
    booted ws input s' = { booted ws input s with imem := (booted ws input s').imem } ∧
      ∀ a, a < (booted ws input s).progLen.toNat →
        (booted ws input s').imem.read a = (booted ws input s).imem.read a := by
  refine ⟨by simp only [booted, hinst], fun a ha => ?_⟩
  have hlen : a < ws.length := Nat.lt_of_lt_of_le ha (Nat.mod_le _ _)
  simp [booted, Memory.read_writeFrom, hlen]

/-- Settles O46: the two boots differ past the program at most, so the two runs reach the same end. -/
theorem runResultIsDetermined : Obligations.RunResultIsDetermined := by
  rintro isSpace text input answers s s' r r' hinst ⟨t, u, k, hboot, hrun, hret⟩ ⟨t', u', k', hboot', hrun', hret'⟩
  obtain ⟨hended, rfl⟩ := returnedText_eq_some.mp hret
  obtain ⟨hended', rfl⟩ := returnedText_eq_some.mp hret'
  obtain ⟨ht', hwords⟩ := booted_congr (strip isSpace text) input s s' hinst
  rw [← boot_next hboot, ← boot_next hboot'] at ht' hwords
  have hrun2 : runFor k (setInAnswers answers t') = .next { u with imem := t'.imem } := by
    rw [ht']
    exact runFor_with_imem (s := setInAnswers answers t) t'.imem hwords hrun
  have hsame := runFor_end_unique hrun2 hrun' hended hended'
  rw [← hsame]

end Sys2Proof.Machine
end

section
/-! PROOFS. The access primitives of the tape (20_memory.md): what they find and leave on the tape, and that they fail
off it. -/

namespace Sys2Proof.Machine

theorem memRead_on_tape (s : State) (a : Ptr) (ha : a.toNat < s.inst.tapeLen) :
    memRead s a = some (s.tape.read a.toNat) := by
  rw [memRead_eq, if_neg ha.not_ge]

theorem memRead_eq_none_iff (s : State) (a : Ptr) : memRead s a = none ↔ s.inst.tapeLen ≤ a.toNat := by
  simp [memRead_eq]

theorem memWrite_eq (s : State) (a : Ptr) (v : Byte) :
    memWrite a v s =
      if s.inst.tapeLen ≤ a.toNat then none else some (setTape (s.tape.write a.toNat v) s) := by
  simp [memWrite, offTape]

theorem memWrite_eq_none_iff (s : State) (a : Ptr) (v : Byte) :
    memWrite a v s = none ↔ s.inst.tapeLen ≤ a.toNat := by
  simp [memWrite_eq]

theorem memWrite_eq_some_iff {s t : State} {a : Ptr} {v : Byte} :
    memWrite a v s = some t ↔ a.toNat < s.inst.tapeLen ∧ setTape (s.tape.write a.toNat v) s = t := by
  simp [memWrite_eq]

theorem memRead_setTape_write_same (s : State) (a : Ptr) (v : Byte) (ha : a.toNat < s.inst.tapeLen) :
    memRead (setTape (s.tape.write a.toNat v) s) a = some v := by
  rw [memRead_eq, setTape_inst, if_neg ha.not_ge, setTape_tape, Memory.read_write, if_pos rfl]

/-- Distinct registers hold distinct addresses, so the write is to another cell. -/
theorem memRead_setTape_write_other (s : State) (a b : Ptr) (v : Byte) (hne : b ≠ a) :
    memRead (setTape (s.tape.write a.toNat v) s) b = memRead s b := by
  have haddr : b.toNat ≠ a.toNat := fun h => hne (BitVec.eq_of_toNat_eq h)
  rw [memRead_eq, memRead_eq, setTape_inst, setTape_tape, Memory.read_write, if_neg haddr]

/-- Settles O21: a write that succeeds is on the tape and sets one cell of it. -/
theorem memReadAndMemWrite : Obligations.MemReadAndMemWrite := by
  intro s a
  refine ⟨memRead_eq_none_iff s a, memRead_on_tape s a, fun v => ⟨memWrite_eq_none_iff s a v, fun t ht => ?_⟩⟩
  obtain ⟨ha, rfl⟩ := memWrite_eq_some_iff.mp ht
  exact ⟨rfl, memRead_setTape_write_same s a v ha, fun b hne => memRead_setTape_write_other s a b v hne⟩

end Sys2Proof.Machine
end

section
/-! PROOFS. Decoding and encoding (30_encoding.md R70 to R76): the two are inverse to each other on the well-formed
instructions, and the rows of spec/opcode_table.json exclude each other. -/

namespace Sys2Proof.Machine

variable {w : Byte} {i : Instr}

/-! ## The round trip -/

@[simp] theorem wf_nop_iff : (Instr.nop w).wf = true ↔ w ∉ notNopWords := by
  simp [Instr.wf]

theorem mem_notNopWords_iff :
    w ∈ notNopWords ↔ w = opInc ∨ w = opIn ∨ w = opDec ∨ w = opOut ∨ w = opLeft ∨ w = opRight ∨ w = opOpen ∨
      w = opClose := by
  simp [notNopWords, opInc, opIn, opDec, opOut, opLeft, opRight, opOpen, opClose]

theorem decode_of_not_coded (h : w ∉ notNopWords) : decode w = .nop w := by
  simp only [mem_notNopWords_iff, not_or] at h
  simp [decode, h]

/-- The words the decoder's comparisons let through to its last branch are those R150 calls NOP. -/
theorem decode_wf (w : Byte) : (decode w).wf = true := by
  by_cases h : w ∈ notNopWords
  · rcases mem_notNopWords_iff.mp h with rfl | rfl | rfl | rfl | rfl | rfl | rfl | rfl <;> rfl
  · rw [decode_of_not_coded h]
    exact wf_nop_iff.mpr h

theorem decode_encode (h : i.wf = true) : decode (encode i) = i := by
  cases i with
  | nop w => exact decode_of_not_coded (wf_nop_iff.mp h)
  | _ => rfl

/-- Settles O3: each of the two round trips is a lemma of its own. -/
theorem encodeDecodeInverse : Obligations.EncodeDecodeInverse :=
  ⟨fun _ => decode_encode, fun w => ⟨decode_wf w, encode_decode w⟩⟩

/-! ## Which words decode to an instruction -/

/-- R74: decoding is an exact comparison with the instruction's word. -/
theorem decode_eq_iff (h : i.wf = true) : decode w = i ↔ w = encode i := by
  constructor
  · rintro rfl
    exact (encode_decode w).symm
  · rintro rfl
    exact decode_encode h

theorem decode_eq_nop_iff : decode w = .nop w ↔ w ∉ notNopWords :=
  ⟨fun h => wf_nop_iff.mp (h ▸ decode_wf w), decode_of_not_coded⟩

/-- Settles O1: the eight words encode the eight instructions, and none of their neighbours is one of the eight. -/
theorem tableWordsDecode : Obligations.TableWordsDecode := by
  refine ⟨decode_encode (i := .right) rfl, decode_encode (i := .left) rfl, decode_encode (i := .inc) rfl,
    decode_encode (i := .dec) rfl, decode_encode (i := .output) rfl, decode_encode (i := .input) rfl,
    decode_encode (i := .openLoop) rfl, decode_encode (i := .closeLoop) rfl, fun w hw => decode_of_not_coded ?_⟩
  revert w
  decide

/-! ## The rows of the opcode table -/

theorem rowMatches_ne_zero_iff : rowMatches i w ≠ 0 ↔ ∃ r ∈ rowPatterns i, w &&& r.2 = r.1 := by
  simp [rowMatches]

theorem rowMatches_encode (h : i.wf = true) : rowMatches i (encode i) = 1 := by
  cases i with
  | nop w => exact Laws.OneRow.nop w h
  | _ => rfl

/-- A row other than NOP's has one pattern: its word, compared in all eight bits. -/
theorem nop_or_coded_row (i : Instr) :
    (∃ u, i = .nop u) ∨ i.wf = true ∧ rowPatterns i = [(encode i, BitVec.allOnes 8)] := by
  cases i with
  | nop u => exact .inl ⟨u, rfl⟩
  | _ => exact .inr ⟨rfl, rfl⟩

/-- NOP's cover leaves the eight codes out. -/
theorem rowMatches_nop_of_coded (u : Byte) (h : w ∈ notNopWords) : rowMatches (.nop u) w = 0 := by
  rcases mem_notNopWords_iff.mp h with rfl | rfl | rfl | rfl | rfl | rfl | rfl | rfl <;> rfl

theorem rowPatterns_decode_of_rowMatches (h : rowMatches i w ≠ 0) : rowPatterns i = rowPatterns (decode w) := by
  rcases nop_or_coded_row i with ⟨u, rfl⟩ | ⟨hwf, hrow⟩
  · rw [decode_of_not_coded fun hw => h (rowMatches_nop_of_coded u hw)]
    rfl
  · obtain ⟨r, hr, hw⟩ := rowMatches_ne_zero_iff.mp h
    obtain rfl : r = (encode i, BitVec.allOnes 8) := by simpa only [hrow, List.mem_singleton] using hr
    rw [BitVec.and_allOnes] at hw
    rw [(decode_eq_iff hwf).mpr hw]

/-- Settles O2: `decode_eq_iff` row by row; a word is the code of what it decodes to, and the rows exclude each
other. -/
theorem decodeMatchesOneRow : Obligations.DecodeMatchesOneRow := by
  refine fun w => ⟨⟨decode_eq_iff rfl, decode_eq_iff rfl, decode_eq_iff rfl, decode_eq_iff rfl, decode_eq_iff rfl,
    decode_eq_iff rfl, decode_eq_iff rfl, decode_eq_iff rfl, decode_eq_nop_iff⟩, ?_,
    fun _ => rowPatterns_decode_of_rowMatches⟩
  have hone := rowMatches_encode (decode_wf w)
  rwa [encode_decode] at hone

end Sys2Proof.Machine
end

section
/-! PROOFS. The execution cycle (40_execution_cycle.md R90 to R96): what a step runs, when it halts, when it does
nothing, and where it leaves `ip`. -/

namespace Sys2Proof.Machine

/-! ## Every step has an outcome -/

/-- R90, R170: no state stops the machine. -/
theorem step_total (s : State) : ∃ t, step s = .next t := by
  rcases step_cases s with ⟨-, hs⟩ | ⟨-, -, hs⟩ | ⟨-, -, hs⟩ <;> rw [hs]
  · exact ⟨s, rfl⟩
  · exact ⟨halt s, rfl⟩
  · obtain ⟨t, ht, -⟩ := exec_has_effect (nextInstr s) s
    exact ⟨t, ht⟩

/-- An instruction leaves `status` alone or faults, and only one that accesses the tape faults (R162). -/
theorem Effect.status_cases {s t : State} {i : Instr} (e : Effect s i t) :
    t.status = s.status ∨ accessesTape i = true ∧ t.status = .faulted := by
  rcases e.record_cases with ⟨hs, -, -⟩ | ⟨c, -, hacc, -, rfl⟩
  · exact .inl hs
  · exact .inr ⟨hacc, rfl⟩

/-- Settles O28: past the end the step halts; inside the program the instruction at `ip` has its effect, which is never
to halt. -/
theorem stepAlwaysHasAnOutcome : Obligations.StepAlwaysHasAnOutcome := by
  intro s
  obtain ⟨t, ht⟩ := step_total s
  refine ⟨t, ht, fun hrun hreset => ?_⟩
  have hidle := (idle_eq_false_iff s).mpr ⟨hreset, hrun⟩
  rcases step_next_cases s t ht with ⟨hidle', -⟩ | ⟨-, hend, rfl⟩ | ⟨-, hip, e⟩
  · rw [hidle] at hidle'; cases hidle'
  · simp [hend]
  · rcases e.status_cases with hs | ⟨hacc, hs⟩
    · simp [hs, hrun, hip]
    · simp [hs, hacc, hip]

/-! ## The next `ip`, row by row (R94) -/

section NextIp

variable {s t : State} {i : Instr}

/-- A fault stays at its instruction (R166). -/
theorem Effect.ip_of_faulted (e : Effect s i t) (hs : s.status ≠ .faulted) (ht : t.status = .faulted) :
    t.ip = s.ip := by
  rcases e.record_cases with ⟨hsame, -, -⟩ | ⟨c, -, -, -, rfl⟩
  · exact absurd (hsame ▸ ht) hs
  · rfl

/-- The seven plain instructions; a `,` that finds neither a byte nor an answer has not completed (R124). -/
theorem Effect.ip_of_plain (e : Effect s i t) (ht : t.status ≠ .faulted) (ho : i ≠ .openLoop) (hc : i ≠ .closeLoop)
    (hin : i = .input → s.inbuf ≠ [] ∨ s.inAnswers ≠ []) : t.ip = s.ip + 1#17 := by
  cases e with
  | offTape => exact absurd rfl ht
  | held _ hb ha =>
    rcases hin rfl with h | h
    · exact absurd hb h
    · exact absurd ha h
  | unmatched | skip | overflow | enter => exact absurd rfl ho
  | closeEmpty | closePop => exact absurd rfl hc
  | _ => rfl

theorem Effect.ip_of_open_nonzero (e : Effect s .openLoop t) (ht : t.status ≠ .faulted)
    (hz : s.tape.read s.p.toNat ≠ 0#8) : t.ip = s.ip + 1#17 := by
  cases e with
  | offTape | unmatched | overflow => exact absurd rfl ht
  | skip m _ hzero => exact absurd hzero hz
  | enter => rfl

theorem Effect.ip_of_open_zero (e : Effect s .openLoop t) (ht : t.status ≠ .faulted)
    (hz : s.tape.read s.p.toNat = 0#8) : ∃ m, matchClose s s.ip = some m ∧ t.ip = m + 1#17 := by
  cases e with
  | offTape | unmatched | overflow => exact absurd rfl ht
  | skip m _ _ hm => exact ⟨m, hm, rfl⟩
  | enter _ hnonzero => exact absurd hz hnonzero

theorem Effect.ip_of_close_empty (e : Effect s .closeLoop t) (hl : s.ls = []) : t.ip = s.ip + 1#17 := by
  cases e with
  | offTape _ hacc => cases hacc
  | closeEmpty => rfl
  | closePop k rest hl' => rw [hl] at hl'; cases hl'

theorem Effect.ip_of_close_pop (e : Effect s .closeLoop t) {k : IAddr} {rest : List IAddr} (hl : s.ls = k :: rest) :
    t.ip = k := by
  cases e with
  | offTape _ hacc => cases hacc
  | closeEmpty hl' => rw [hl] at hl'; cases hl'
  | closePop k' rest' hl' => rw [hl] at hl'; cases hl'; rfl

end NextIp

/-- The match is a word of the program, so the address after it does not wrap (R22). -/
theorem matchClose_succ_toNat {s : State} {i m : IAddr} (h : matchClose s i = some m) :
    (m + 1#17).toNat = m.toNat + 1 := by
  obtain ⟨-, hlen, -, -⟩ := matchClose_some s i m h
  exact ip_succ_toNat (setIp m s) hlen

/-- Settles O29: each row is what `Effect` says of `ip` for that instruction. That no sum wraps needs only an
instruction at `ip`. -/
theorem advanceTable : Obligations.AdvanceTable := by
  intro i s t hrun h
  have e := exec_effect i s t h
  refine ⟨e.ip_of_faulted (by simp [hrun]), fun ht => ⟨e.ip_of_plain ht, ?openNonzero, ?openZero, ?closeEmpty, ?closePop⟩,
    fun _ hip => ⟨ip_succ_toNat s hip, fun _ => matchClose_succ_toNat⟩, fun hreset hend => ?halting⟩
  case openNonzero => rintro rfl; exact e.ip_of_open_nonzero ht
  case openZero => rintro rfl; exact e.ip_of_open_zero ht
  case closeEmpty => rintro rfl; exact e.ip_of_close_empty
  case closePop => rintro rfl k rest; exact e.ip_of_close_pop
  case halting =>
    exact ⟨halt s, step_past_end s ((idle_eq_false_iff s).mpr ⟨hreset, hrun⟩) hend, rfl⟩

/-! ## The instruction a step runs (R91) -/

/-- Settles O24; the decoder answers well-formed instructions only (R75). -/
theorem stepRunsFetchedWord : Obligations.StepRunsFetchedWord := fun s hreset hrun hip =>
  ⟨decode_wf _, step_inside s ((idle_eq_false_iff s).mpr ⟨hreset, hrun⟩) hip⟩

theorem nextInstr_placeWord (w : Byte) (s : State) : nextInstr (placeWord w s) = decode w := by
  have hread : (placeWord w s).imem.read s.ip.toNat = w := by
    rw [placeWord, Memory.read_write, if_pos rfl]
  exact congrArg decode hread

/-- The placed word is a word of the program: `prog_len` grows to take it in where it has to. -/
theorem placeWord_ip_lt_progLen (w : Byte) (s : State) (hip : s.ip.toNat + 1 < 2 ^ 17) :
    (placeWord w s).ip.toNat < (placeWord w s).progLen.toNat := by
  have hsucc : (s.ip + 1#17).toNat = s.ip.toNat + 1 := by
    rw [BitVec.toNat_add_of_lt (by simpa using hip)]; rfl
  change s.ip.toNat < (if s.ip.toNat < s.progLen.toNat then s.progLen else s.ip + 1#17).toNat
  split <;> omega

theorem step_placeWord (w : Byte) (s : State) (hip : s.ip.toNat + 1 < 2 ^ 17) :
    step (placeWord w s) = exec (decode w) (placeWord w s) := by
  rw [step_inside _ rfl (placeWord_ip_lt_progLen w s hip), nextInstr_placeWord]

/-- Settles O25: the host's view of the decoder is the decoder, and `withFetchWord` is `placeWord`. -/
theorem placedWordRunsNext : Obligations.PlacedWordRunsNext := fun s w hip =>
  ⟨rfl, step_placeWord (BitVec.ofNat 8 w) s hip⟩

/-! ## The halting step (R92) -/

/-- The start of a run: reset released after LOAD of the input, the program as it was loaded before (R193). -/
theorem releaseReset_loadInput_applyReset (ms : List Byte) (s : State) :
    releaseReset (loadInput ms (applyReset s)) =
      { State.reset with imem := s.imem, progLen := s.progLen, inst := s.inst, inbuf := ms } := by
  rw [loadInput_held ms (applyReset s) rfl]
  rfl

/-- Settles O26: the halt, the bound on `ip` that makes it `prog_len`, and the halt once more after a reset. -/
theorem haltIsAStepOfItsOwn : Obligations.HaltIsAStepOfItsOwn := by
  refine ⟨fun s hreset hrun hend => ?_, fun s h hend => ?_, fun s ms hempty => ?_⟩
  · exact step_past_end s ((idle_eq_false_iff s).mpr ⟨hreset, hrun⟩) hend
  · exact BitVec.eq_of_toNat_eq (Nat.le_antisymm h.indexes.ip hend)
  · rw [releaseReset_loadInput_applyReset, hempty]
    exact step_past_end _ rfl (Nat.zero_le _)

/-! ## Nothing happens after the end but a reset (R96) -/

/-- No action of the host but reset touches what RESULT shows: a load writes the program or the input, an answer the
answers, the release the reset line. -/
theorem hostStep_result_frame {s t : State} {a : HostAction} (h : hostStep a s = .next t) (ha : a ≠ .applyReset) :
    t.status = s.status ∧ t.fcause = s.fcause ∧ t.fpos = s.fpos ∧ t.out = s.out := by
  cases a with
  | applyReset => exact absurd rfl ha
  | loadProgram ws =>
    rw [hostStep, loadProgram] at h
    split_ifs at h <;> cases h <;> exact ⟨rfl, rfl, rfl, rfl⟩
  | loadInput bs =>
    rw [hostStep, loadInput] at h
    split_ifs at h <;> cases h <;> exact ⟨rfl, rfl, rfl, rfl⟩
  | releaseReset => cases h; exact ⟨rfl, rfl, rfl, rfl⟩
  | answer x =>
    rw [hostStep, answerPoll] at h
    split_ifs at h <;> cases h <;> exact ⟨rfl, rfl, rfl, rfl⟩

/-- Settles O27: the step by its opening test, the host's part from any state, ended or not. -/
theorem terminalUntilReset : Obligations.TerminalUntilReset := by
  refine ⟨fun s h => ?_, fun s t a _ hs ha => hostStep_result_frame hs ha⟩
  rcases h with hhalted | hfaulted | hreset
  · exact step_of_ended s ((ended_iff s).mpr (.inl hhalted))
  · exact step_of_ended s ((ended_iff s).mpr (.inr hfaulted))
  · exact step_idle s ((idle_iff s).mpr (.inl hreset))

end Sys2Proof.Machine
end

section
/-! PROOFS. The pointer family (41_pointer.md R100 to R103): what one move and a run of equal moves leave in `p`, and
which instructions fault where. -/

namespace Sys2Proof.Machine

variable {s t : State} {i : Instr} {n k : Nat} {p : Ptr}

/-! ## A run of `>` or of `<` -/

theorem exec_right (s : State) : exec .right s = .next (advance (setP (movedRight s.inst.tapeLen s.p) s)) := rfl

theorem exec_left (s : State) : exec .left s = .next (advance (setP (movedLeft s.inst.tapeLen s.p) s)) := rfl

/-- `k` executions of an instruction that only moves the pointer, by `move`, are `k` moves and an advance by `k`. -/
theorem repeatExec_of_move {move : Nat → Ptr → Ptr}
    (hmove : ∀ s, exec i s = .next (advance (setP (move s.inst.tapeLen s.p) s))) (k : Nat) (s : State) :
    repeatExec k i s =
      .next { s with p := (move s.inst.tapeLen)^[k] s.p, ip := s.ip + BitVec.ofNat 17 k } := by
  induction k generalizing s with
  | zero => simp [repeatExec]
  | succ k ih =>
    have hip : s.ip + 1#17 + BitVec.ofNat 17 k = s.ip + BitVec.ofNat 17 (k + 1) := by
      rw [BitVec.add_assoc, Nat.add_comm k 1, BitVec.ofNat_add]
    simp only [repeatExec, hmove, ih, Function.iterate_succ_apply]
    rw [← hip]
    rfl

/-! ## Where `>` takes the pointer -/

theorem movedRight_wraps (h : n ≤ p.toNat + 1) : movedRight n p = 0#15 :=
  if_neg (by omega)

/-- On the tape, `>` is the successor modulo `TAPE_LEN`. -/
theorem movedRight_toNat_on_tape (hn : n < 2 ^ 15) (hp : p.toNat < n) :
    (movedRight n p).toNat = (p.toNat + 1) % n := by
  rw [movedRight_toNat n p hn]
  split
  case isTrue hlt => rw [Nat.mod_eq_of_lt (by omega)]
  case isFalse hlast => rw [show p.toNat + 1 = n by omega, Nat.mod_self]

theorem movedRight_iterate_toNat (hn : n < 2 ^ 15) (hp : p.toNat < n) (k : Nat) :
    ((movedRight n)^[k] p).toNat = (p.toNat + k) % n := by
  induction k with
  | zero => exact (Nat.mod_eq_of_lt hp).symm
  | succ k ih =>
    have hk : ((movedRight n)^[k] p).toNat < n := ih ▸ Nat.mod_lt _ (by omega)
    rw [Function.iterate_succ_apply', movedRight_toNat_on_tape hn hk, ih, Nat.mod_add_mod, Nat.add_assoc]

/-- The wraparound law of R101. -/
theorem movedRight_iterate_tapeLen (hn : n < 2 ^ 15) (hp : p.toNat < n) : (movedRight n)^[n] p = p := by
  apply BitVec.eq_of_toNat_eq
  rw [movedRight_iterate_toNat hn hp, Nat.add_mod_right, Nat.mod_eq_of_lt hp]

/-- Off the tape the law fails: the first `>` goes to 0, and the others are one short of a round. -/
theorem movedRight_iterate_tapeLen_off_tape (hpos : 1 ≤ n) (hn : n < 2 ^ 15) (hp : p.toNat = n) :
    ((movedRight n)^[n] p).toNat = n - 1 := by
  obtain ⟨k, rfl⟩ : ∃ k, n = k + 1 := ⟨n - 1, by omega⟩
  rw [Function.iterate_succ_apply, movedRight_wraps (by omega), movedRight_iterate_toNat hn (by simp)]
  simp

/-- Settles O4: one `>` by `movedRight_toNat`, the two laws by iterating `movedRight`. -/
theorem rightMovesAndWraps : Obligations.RightMovesAndWraps := by
  refine ⟨rfl, decode_encode (i := .right) rfl, fun s hw => ?step, fun s hw hp => ?law, fun s hw hp => ?offTape⟩ <;>
    obtain ⟨hpos, hn, -⟩ := (params_wf_iff s.inst).mp hw
  case step => exact ⟨_, exec_right s, rfl, movedRight_toNat _ _ hn⟩
  case law => rw [repeatExec_of_move exec_right, movedRight_iterate_tapeLen hn hp]
  case offTape => exact ⟨_, repeatExec_of_move exec_right _ s, movedRight_iterate_tapeLen_off_tape hpos hn hp⟩

/-! ## Where `<` takes the pointer -/

theorem movedLeft_toNat_of_pos (hn : n < 2 ^ 15) (hp : 1 ≤ p.toNat) : (movedLeft n p).toNat = p.toNat - 1 :=
  (movedLeft_toNat n p hn).trans (if_pos hp)

theorem movedLeft_iterate_toNat (hn : n < 2 ^ 15) (hk : k ≤ p.toNat) :
    ((movedLeft n)^[k] p).toNat = p.toNat - k := by
  induction k with
  | zero => rfl
  | succ k ih =>
    have hprev := ih (by omega)
    rw [Function.iterate_succ_apply', movedLeft_toNat_of_pos hn (by omega)]
    omega

/-- From 0 the first `<` leaves the tape for `TAPE_LEN`; the others count down from there (R102). -/
theorem movedLeft_iterate_zero_toNat (hn : n < 2 ^ 15) (hpos : 1 ≤ k) (hk : k ≤ n + 1) :
    ((movedLeft n)^[k] 0#15).toNat = n + 1 - k := by
  obtain ⟨j, rfl⟩ : ∃ j, k = j + 1 := ⟨k - 1, by omega⟩
  have hfirst : (movedLeft n 0#15).toNat = n := movedLeft_toNat n 0#15 hn
  rw [Function.iterate_succ_apply, movedLeft_iterate_toNat hn (by omega)]
  omega

theorem movedRight_iterate_zero_toNat (hn : n < 2 ^ 15) (hpos : 1 ≤ n) (hk : k ≤ n) :
    ((movedRight n)^[k] 0#15).toNat = if k < n then k else 0 := by
  rw [movedRight_iterate_toNat (p := 0#15) hn hpos, BitVec.toNat_ofNat, Nat.zero_mod, Nat.zero_add]
  split
  case isTrue hlt => exact Nat.mod_eq_of_lt hlt
  case isFalse hge => rw [show k = n by omega, Nat.mod_self]

/-- Settles O5: one `<` by `movedLeft_toNat`, the two periods by iterating both moves from 0. -/
theorem leftMovesAndLeavesTape : Obligations.LeftMovesAndLeavesTape := by
  refine ⟨rfl, decode_encode (i := .left) rfl, fun s hw => ?step, fun s hw hp k hk hle => ?leftRun,
    fun s hw hp k hk hle => ?rightRun⟩ <;>
    obtain ⟨hpos, hn, -⟩ := (params_wf_iff s.inst).mp hw
  case step => exact ⟨_, exec_left s, rfl, movedLeft_toNat _ _ hn⟩
  case leftRun =>
    refine ⟨_, repeatExec_of_move exec_left k s, ?_⟩
    rw [hp]
    exact movedLeft_iterate_zero_toNat hn hk hle
  case rightRun =>
    refine ⟨_, repeatExec_of_move exec_right k s, ?_⟩
    rw [hp]
    exact movedRight_iterate_zero_toNat hn hpos hle

/-! ## Where a tape access faults (D5) -/

/-- The two other faults of `[` have causes of their own, and what does not fault leaves `status` alone. -/
theorem Effect.off_tape_of_pointerOutOfTape (e : Effect s i t) (hs : s.status ≠ .faulted) (ht : t.status = .faulted)
    (hc : t.fcause = .pointerOutOfTape) : s.inst.tapeLen ≤ s.p.toNat := by
  cases e with
  | offTape _ _ hp => exact hp
  | unmatched | overflow => cases hc
  | _ => exact absurd ht hs

theorem exec_eq_raise_pointerOutOfTape_iff (hs : s.status ≠ .faulted) (ha : accessesTape i = true) :
    exec i s = raise .pointerOutOfTape s ↔ s.inst.tapeLen ≤ s.p.toNat :=
  ⟨fun h => (exec_effect _ _ _ h).off_tape_of_pointerOutOfTape hs rfl rfl, fun hp => (Effect.offTape i ha hp).exec_eq⟩

theorem Effect.status_of_no_access (e : Effect s i t) (ha : accessesTape i = false) : t.status = s.status := by
  rcases e.status_cases with hs | ⟨hacc, -⟩
  · exact hs
  · rw [ha] at hacc; cases hacc

/-- Settles O6: the rows by the two moves, the faults by the cause of a fault entry. -/
theorem pointerTransitionTable : Obligations.PointerTransitionTable := by
  intro s hw hp
  obtain ⟨hpos, hn, -⟩ := (params_wf_iff s.inst).mp hw
  have hright := movedRight_toNat s.inst.tapeLen s.p hn
  have hleft := movedLeft_toNat s.inst.tapeLen s.p hn
  refine ⟨_, _, exec_right s, exec_left s, ?_⟩
  simp only [advance_p, setP_p]
  refine ⟨fun h0 => ?first, fun h1 h2 => ?inner, fun h2 hlast => ⟨movedRight_wraps (by omega), ?last⟩,
    fun hoff => ⟨movedRight_wraps (by omega), ?off⟩, fun i hrun ha => ?faults, fun i t hrun ha h => ?runs⟩
  case first =>
    have hzero : s.p.toNat = 0 := by rw [h0]; rfl
    rw [hright, hleft, hzero]
    exact ⟨by split_ifs <;> omega, rfl⟩
  case inner => exact ⟨hright.trans (if_pos (by omega)), movedLeft_toNat_of_pos hn h1⟩
  case last => rw [movedLeft_toNat_of_pos hn (by omega)]; omega
  case off => rw [movedLeft_toNat_of_pos hn (by omega)]; omega
  case faults =>
    rw [exec_eq_raise_pointerOutOfTape_iff (by simp [hrun]) ha]
    omega
  case runs => rw [(exec_effect i s t h).status_of_no_access ha, hrun]

end Sys2Proof.Machine
end

section
/-! PROOFS. Cell arithmetic (42_arithmetic.md R110 to R114): the ALU on numbers, and what one `+` or `-` and a run of
them leave on the tape. -/

namespace Sys2Proof.Machine

variable {i : Instr} {op undo : AluOp} {d : Nat}

/-! ## The ALU on numbers (R114) -/

theorem aluResult_inc_toNat (a : Byte) : (aluResult .inc a).toNat = (a.toNat + 1) % 256 :=
  BitVec.toNat_add a 1#8

/-- One less is 255 more, modulo 256. -/
theorem aluResult_dec_toNat (a : Byte) : (aluResult .dec a).toNat = (a.toNat + 255) % 256 :=
  (BitVec.toNat_sub a 1#8).trans (congrArg (· % 256) (Nat.add_comm 255 a.toNat))

theorem aluResult_dec_inc (a : Byte) : aluResult .dec (aluResult .inc a) = a :=
  BitVec.add_sub_cancel a 1#8

theorem aluResult_inc_dec (a : Byte) : aluResult .inc (aluResult .dec a) = a :=
  BitVec.sub_add_cancel a 1#8

theorem aluTest_iff_toNat (a : Byte) : aluTest a = true ↔ a.toNat = 0 :=
  (aluTest_iff a).trans BitVec.toNat_eq

/-- Settles O9: an operation at a time; PASS answers its input by definition. -/
theorem aluBlock : Obligations.AluBlock := fun a =>
  ⟨aluResult_inc_toNat a, aluResult_dec_toNat a, rfl, aluTest_iff_toNat a⟩

/-- `k` times plus `d` modulo 256 is once plus `k * d`. -/
theorem aluResult_iterate_toNat (hop : ∀ a, (aluResult op a).toNat = (a.toNat + d) % 256) (k : Nat) (a : Byte) :
    ((aluResult op)^[k] a).toNat = (a.toNat + k * d) % 256 := by
  induction k with
  | zero => rw [Nat.zero_mul]; exact (Nat.mod_eq_of_lt a.isLt).symm
  | succ k ih => rw [Function.iterate_succ_apply', hop, ih, Nat.mod_add_mod, Nat.succ_mul, Nat.add_assoc]

theorem aluResult_iterate_256 (hop : ∀ a, (aluResult op a).toNat = (a.toNat + d) % 256) (a : Byte) :
    (aluResult op)^[256] a = a := by
  apply BitVec.eq_of_toNat_eq
  rw [aluResult_iterate_toNat hop, Nat.add_mul_mod_self_left]
  exact Nat.mod_eq_of_lt a.isLt

/-! ## One `+` or `-` -/

/-- What `+` and `-` do on the tape: the current cell through the ALU, and the advance (R110, R111). -/
def throughAlu (op : AluOp) (s : State) : State :=
  advance (setTape (s.tape.write s.p.toNat (aluResult op (s.tape.read s.p.toNat))) s)

@[simp] theorem throughAlu_p (op : AluOp) (s : State) : (throughAlu op s).p = s.p := rfl
@[simp] theorem throughAlu_inst (op : AluOp) (s : State) : (throughAlu op s).inst = s.inst := rfl

theorem throughAlu_frame (op : AluOp) (s : State) :
    throughAlu op s = { s with tape := (throughAlu op s).tape, ip := s.ip + 1#17 } := rfl

theorem throughAlu_read (op : AluOp) (s : State) (a : Nat) :
    (throughAlu op s).tape.read a =
      if a = s.p.toNat then aluResult op (s.tape.read s.p.toNat) else s.tape.read a :=
  Memory.read_write s.tape s.p.toNat a _

theorem exec_inc_on_tape (s : State) (hp : s.p.toNat < s.inst.tapeLen) : exec .inc s = .next (throughAlu .inc s) :=
  (Effect.inc hp).exec_eq

theorem exec_dec_on_tape (s : State) (hp : s.p.toNat < s.inst.tapeLen) : exec .dec s = .next (throughAlu .dec s) :=
  (Effect.dec hp).exec_eq

/-- The cell at the pointer moves by `d` modulo 256, every other stays. -/
theorem throughAlu_cells (hop : ∀ a, (aluResult op a).toNat = (a.toNat + d) % 256) (s : State) :
    ((throughAlu op s).tape.read s.p.toNat).toNat = ((s.tape.read s.p.toNat).toNat + d) % 256 ∧
      ∀ a, a ≠ s.p.toNat → (throughAlu op s).tape.read a = s.tape.read a := by
  refine ⟨?_, fun a ha => ?_⟩
  · rw [throughAlu_read, if_pos rfl, hop]
  · rw [throughAlu_read, if_neg ha]

/-- The pointer has not moved, so the second operation meets the cell that the first one wrote. -/
theorem throughAlu_undo_read (hundo : ∀ v, aluResult undo (aluResult op v) = v) (s : State) (a : Nat) :
    (throughAlu undo (throughAlu op s)).tape.read a = s.tape.read a := by
  by_cases ha : a = s.p.toNat
  · simp [throughAlu_read, ha, hundo]
  · simp [throughAlu_read, ha]

/-! ## A run of `+` or of `-` -/

/-- A run stays on the tape, where it is the iteration of `throughAlu`. -/
theorem repeatExec_on_tape
    (hexec : ∀ s : State, s.p.toNat < s.inst.tapeLen → exec i s = .next (throughAlu op s))
    (k : Nat) (s : State) (hp : s.p.toNat < s.inst.tapeLen) :
    repeatExec k i s = .next ((throughAlu op)^[k] s) := by
  induction k generalizing s with
  | zero => rfl
  | succ k ih =>
    simp only [repeatExec, hexec s hp]
    exact ih (throughAlu op s) hp

theorem throughAlu_iterate_frame (op : AluOp) (k : Nat) (s : State) :
    (throughAlu op)^[k] s = { s with tape := ((throughAlu op)^[k] s).tape, ip := s.ip + BitVec.ofNat 17 k } := by
  induction k generalizing s with
  | zero => simp
  | succ k ih =>
    have hip : s.ip + BitVec.ofNat 17 (k + 1) = s.ip + 1#17 + BitVec.ofNat 17 k := by
      rw [BitVec.add_assoc, Nat.add_comm k 1, BitVec.ofNat_add]
    rw [Function.iterate_succ_apply, hip]
    exact ih (throughAlu op s)

theorem throughAlu_iterate_read (op : AluOp) (k : Nat) (s : State) (a : Nat) :
    ((throughAlu op)^[k] s).tape.read a =
      if a = s.p.toNat then (aluResult op)^[k] (s.tape.read s.p.toNat) else s.tape.read a := by
  induction k generalizing s with
  | zero =>
    split
    case isTrue ha => rw [ha]; rfl
    case isFalse => rfl
  | succ k ih =>
    rw [Function.iterate_succ_apply, ih, throughAlu_p, throughAlu_read, throughAlu_read, if_pos rfl]
    split <;> rfl

/-- The wraparound law on the tape: after 256 the cell is back, and no other was touched. -/
theorem throughAlu_iterate_256_read (hop : ∀ a, (aluResult op a).toNat = (a.toNat + d) % 256) (s : State) (a : Nat) :
    ((throughAlu op)^[256] s).tape.read a = s.tape.read a := by
  rw [throughAlu_iterate_read, aluResult_iterate_256 hop]
  split
  case isTrue ha => rw [ha]
  case isFalse => rfl

/-! ## The statements -/

/-- Settles O7: `+` is INC of the ALU on one cell, which adds 1. -/
theorem incAddsOneModulo256 : Obligations.IncAddsOneModulo256 := by
  refine ⟨rfl, decode_encode (i := .inc) rfl, fun s hp => ?step, fun s hp => (Effect.offTape .inc rfl hp).exec_eq,
    fun s hp => ?law⟩
  case step => exact ⟨_, exec_inc_on_tape s hp, throughAlu_frame _ s, throughAlu_cells aluResult_inc_toNat s⟩
  case law =>
    exact ⟨_, repeatExec_on_tape exec_inc_on_tape 256 s hp, throughAlu_iterate_frame _ 256 s,
      throughAlu_iterate_256_read aluResult_inc_toNat s⟩

/-- Settles O8: `-` is DEC of the ALU on one cell, which adds 255 and undoes INC. -/
theorem decSubtractsOneModulo256 : Obligations.DecSubtractsOneModulo256 := by
  refine ⟨rfl, decode_encode (i := .dec) rfl, fun s hp => ?step, fun s hp => (Effect.offTape .dec rfl hp).exec_eq,
    fun s hp => ?inverse, fun s hp => ?law⟩
  case step => exact ⟨_, exec_dec_on_tape s hp, throughAlu_frame _ s, throughAlu_cells aluResult_dec_toNat s⟩
  case inverse =>
    exact ⟨_, _, _, _, exec_inc_on_tape s hp, exec_dec_on_tape _ hp, exec_dec_on_tape s hp, exec_inc_on_tape _ hp,
      fun a => ⟨throughAlu_undo_read aluResult_dec_inc s a, throughAlu_undo_read aluResult_inc_dec s a⟩⟩
  case law =>
    exact ⟨_, repeatExec_on_tape exec_dec_on_tape 256 s hp, throughAlu_iterate_frame _ 256 s,
      throughAlu_iterate_256_read aluResult_dec_toNat s⟩

end Sys2Proof.Machine
end

section
/-! PROOFS. Input and output (43_io.md R120 to R123): what `.` and `,` do on and off the tape, and that no other
instruction touches the output or the input. -/

namespace Sys2Proof.Machine

/-- A write shows at its own address and nowhere else. -/
theorem Memory.write_cells (m : Memory) (a : Nat) (v : Byte) :
    (m.write a v).read a = v ∧ ∀ c, c ≠ a → (m.write a v).read c = m.read c :=
  ⟨(Memory.read_write m a a v).trans (if_pos rfl), fun c hc => (Memory.read_write m a c v).trans (if_neg hc)⟩

/-- The byte that `,` stores for an answer of the host (R123). -/
def answerByte (x : PollAnswer) : Byte :=
  match x with
  | .byte b => b
  | .endOfData => 0#8

/-- `answerByte` meets the condition under which `Effect.answered` stores a byte. -/
theorem answerByte_spec (x : PollAnswer) : x = .byte (answerByte x) ∨ x = .endOfData ∧ answerByte x = 0#8 := by
  cases x with
  | byte b => exact .inl rfl
  | endOfData => exact .inr ⟨rfl, rfl⟩

/-- Settles O11: with a byte or an answer at hand `,` is one write at the pointer, so the cells are those of a write. -/
theorem inStoresNextByte : Obligations.InStoresNextByte := by
  refine ⟨rfl, decode_encode (i := .input) rfl, fun s b rest hp hb => ?buffered, fun s x rest hp hb ha => ?answered,
    fun s hp => (Effect.offTape .input rfl hp).exec_eq⟩
  case buffered =>
    exact ⟨_, (Effect.buffered b rest hp hb).exec_eq, rfl, Memory.write_cells s.tape s.p.toNat b⟩
  case answered =>
    obtain ⟨hcell, hother⟩ := Memory.write_cells s.tape s.p.toNat (answerByte x)
    refine ⟨_, (Effect.answered _ x rest hp hb ha (answerByte_spec x)).exec_eq, rfl, ?byte, ?endOfData, hother⟩
    case byte => rintro b rfl; exact hcell
    case endOfData => rintro rfl; exact hcell

/-- Settles O14: of all effects, only that of `.` reaches the output, and only the two of `,` with input at hand take
any. -/
theorem onlyDotOutputsOnlyCommaReads : Obligations.OnlyDotOutputsOnlyCommaReads := by
  intro i s t h
  have e : Effect s i t := exec_effect i s t h
  exact ⟨e.out_cases, e.input_cases⟩

/-- Settles O10: `.` has one effect on the tape and the fault entry off it. -/
theorem outAppendsCell : Obligations.OutAppendsCell :=
  ⟨rfl, decode_encode (i := .output) rfl, fun _ hp => (Effect.output hp).exec_eq,
    fun _ hp => (Effect.offTape .output rfl hp).exec_eq⟩

end Sys2Proof.Machine
end

section
/-! PROOFS. The loops (44_loop.md R130 to R140): what `[` and `]` do, what the forward scan finds, the bound on the
depth of the loop stack, and balanced programs, whose loop stack is at every moment the brackets that enclose `ip`. -/

namespace Sys2Proof.Machine

/-! ## `[` and `]` -/

/-- Settles O15: each outcome is one of the effects of `[`; nothing has moved before the word at address 0 has run. -/
theorem openSkipsOrEnters : Obligations.OpenSkipsOrEnters :=
  ⟨rfl, decode_encode (i := .openLoop) rfl,
    fun _ hp => (Effect.offTape .openLoop rfl hp).exec_eq,
    fun _ m hp hz hm => (Effect.skip m hp hz hm).exec_eq,
    fun _ hp hz hm => (Effect.unmatched hp hz hm).exec_eq,
    fun _ hp hz hd => (Effect.enter hp hz hd).exec_eq,
    fun _ hp hz hd => (Effect.overflow hp hz hd.ge).exec_eq,
    fun s h hip => by
      obtain ⟨hp, htape⟩ := h.indexes.first hip
      exact ⟨hp, by rw [htape]; rfl⟩⟩

/-- Settles O16: the two effects of `]`, and what the invariant says of the entries of the loop stack. -/
theorem closeReturnsToOpen : Obligations.CloseReturnsToOpen := by
  refine ⟨rfl, decode_encode (i := .closeLoop) rfl, fun s hl => (Effect.closeEmpty hl).exec_eq,
    fun s k rest hl => (Effect.closePop k rest hl).exec_eq, fun s h k rest hl => ?_⟩
  have hk : k ∈ s.ls := hl ▸ List.mem_cons_self
  obtain ⟨-, hword⟩ := programWord_eq_some.mp (h.stack.bracket k hk)
  exact ⟨hword, h.stack.below k hk⟩

/-- Settles O18: the scan looks at the words after `i` alone. -/
theorem matchCloseOnlyReadsProgram : Obligations.MatchCloseOnlyReadsProgram :=
  matchClose_congr

/-! ## Counting words -/

section Counting

variable (s : State) (w : Byte)

@[simp] theorem countWord_zero (lo : Nat) : countWord s w lo 0 = 0 := rfl

theorem countWord_one (lo : Nat) : countWord s w lo 1 = if s.imem.read lo = w then 1 else 0 := by
  by_cases h : s.imem.read lo = w <;> simp [countWord, List.range_one, h]

theorem countWord_add (lo m n : Nat) :
    countWord s w lo (m + n) = countWord s w lo m + countWord s w (lo + m) n := by
  simp [countWord, List.range_add, List.filter_map, Function.comp_def, Nat.add_assoc]

theorem countWord_succ (lo n : Nat) :
    countWord s w lo (n + 1) = (if s.imem.read lo = w then 1 else 0) + countWord s w (lo + 1) n := by
  rw [Nat.add_comm n 1, countWord_add, countWord_one]

theorem countWord_le (lo n : Nat) : countWord s w lo n ≤ n :=
  (List.length_filter_le _ _).trans_eq List.length_range

end Counting

theorem opOpen_ne_opClose : opOpen ≠ opClose := by decide

/-! ## What the forward scan finds (R132) -/

/-- Among the `n` words from `lo` on there are at most `depth` more `]` than `[`: a scan that begins at `lo` inside
`depth` loops does not leave the last of them on these words. -/
def excessWithin (s : State) (lo depth n : Nat) : Prop :=
  countWord s opClose lo n ≤ countWord s opOpen lo n + depth

section Scan

variable {s : State} {j depth n m r c : Nat}

@[simp] theorem excessWithin_zero : excessWithin s j depth 0 := Nat.zero_le _

/-- A word either is the `]` that leaves the last loop, where the scan ends, or is passed over with the nesting
counter adjusted for it. -/
theorem scanClose_word_cases (s : State) (j depth : Nat) :
    ((∀ n, scanClose s.imem (n + 1) j depth = some j) ∧ ¬ excessWithin s j depth 1) ∨
      ∃ depth', (∀ n, scanClose s.imem (n + 1) j depth = scanClose s.imem n (j + 1) depth') ∧
        ∀ n, excessWithin s j depth (n + 1) ↔ excessWithin s (j + 1) depth' n := by
  by_cases ho : s.imem.read j = opOpen
  · refine .inr ⟨depth + 1, fun n => scanClose_open _ _ _ _ ho, fun n => ?_⟩
    simp only [excessWithin, countWord_succ, ho, if_true, if_neg opOpen_ne_opClose]; omega
  by_cases hc : s.imem.read j = opClose
  · cases depth with
    | zero =>
      refine .inl ⟨fun n => scanClose_close_zero _ _ _ hc, ?_⟩
      simp [excessWithin, countWord_one, hc, opOpen_ne_opClose.symm]
    | succ d =>
      refine .inr ⟨d, fun n => scanClose_close_succ _ _ _ _ hc, fun n => ?_⟩
      simp only [excessWithin, countWord_succ, hc, if_true, if_neg opOpen_ne_opClose.symm]; omega
  · refine .inr ⟨depth, fun n => scanClose_other _ _ _ _ ho hc, fun n => ?_⟩
    simp only [excessWithin, countWord_succ, ho, hc, if_false]; omega

/-- The scan finds nothing exactly when no stretch it looked at leaves the last loop. -/
theorem scanClose_eq_none_iff :
    scanClose s.imem n j depth = none ↔ ∀ m < n + 1, excessWithin s j depth m := by
  induction n generalizing j depth with
  | zero => simp
  | succ n ih =>
    rw [Nat.forall_lt_succ_left]
    rcases scanClose_word_cases s j depth with ⟨hfound, hexcess⟩ | ⟨depth', hpass, hexcess⟩
    · simp only [hfound, reduceCtorEq, excessWithin_zero, true_and, false_iff]
      exact fun h => hexcess (h 0 (Nat.succ_pos n))
    · simp only [hpass, hexcess, ih, excessWithin_zero, true_and]

/-- The scan finds the first word that leaves the last loop. -/
theorem scanClose_eq_some_iff :
    scanClose s.imem n j depth = some (j + r) ↔
      r < n ∧ (∀ m < r + 1, excessWithin s j depth m) ∧ ¬ excessWithin s j depth (r + 1) := by
  induction n generalizing j depth r with
  | zero => simp
  | succ n ih =>
    rcases scanClose_word_cases s j depth with ⟨hfound, hexcess⟩ | ⟨depth', hpass, hexcess⟩
    · cases r with
      | zero => simp [hfound, hexcess]
      | succ r =>
        simp only [hfound, Option.some.injEq]
        exact ⟨fun h => by omega, fun h => absurd (h.2.1 1 (by omega)) hexcess⟩
    · cases r with
      | zero =>
        simp only [hpass, hexcess, excessWithin_zero, not_true, and_false, iff_false]
        exact fun h => by have := (scanClose_some _ _ _ _ _ h).1; omega
      | succ r =>
        have hword : j + (r + 1) = j + 1 + r := by omega
        rw [hpass, hword, ih, hexcess, Nat.forall_lt_succ_left (n := r + 1)]
        simp only [hexcess, excessWithin_zero, true_and, Nat.add_lt_add_iff_right]

/-- The words up to and with the first `]` that leaves the loop hold one more `]` than `[`. -/
theorem first_excess_iff (s : State) (lo r : Nat) :
    (∀ m < r + 1, excessWithin s lo 0 m) ∧ ¬ excessWithin s lo 0 (r + 1) ↔
      countWord s opClose lo (r + 1) = countWord s opOpen lo (r + 1) + 1 ∧
        ∀ m < r + 1, countWord s opClose lo m ≤ countWord s opOpen lo m := by
  unfold excessWithin
  constructor
  · rintro ⟨hle, hgt⟩
    have hlast := hle r (Nat.lt_succ_self r)
    have hword := countWord_le s opClose (lo + r) 1
    rw [countWord_add s opClose] at hgt ⊢
    rw [countWord_add s opOpen] at hgt ⊢
    exact ⟨by omega, hle⟩
  · rintro ⟨heq, hle⟩
    exact ⟨hle, by omega⟩

/-- The partner of a `[` at `o` is the first address by which the words after `o` hold one more `]` than `[`. -/
theorem pairs_iff (s : State) (o c : Nat) :
    pairs s o c ↔ o < c ∧ c < s.progLen.toNat ∧
      countWord s opClose (o + 1) (c - o) = countWord s opOpen (o + 1) (c - o) + 1 ∧
      ∀ n < c - o, countWord s opClose (o + 1) n ≤ countWord s opOpen (o + 1) n := by
  by_cases hlt : o < c
  · obtain ⟨r, rfl⟩ := Nat.exists_eq_add_of_lt hlt
    have hc : o + r + 1 = o + 1 + r := by omega
    have hlen : o + 1 + r - o = r + 1 := by omega
    rw [pairs, hc, scanClose_eq_some_iff, first_excess_iff, hlen]
    exact ⟨fun ⟨hr, h⟩ => ⟨by omega, by omega, h⟩, fun ⟨_, hr, h⟩ => ⟨by omega, h⟩⟩
  · exact ⟨fun h => by have := (scanClose_some _ _ _ _ _ h).1; omega, fun h => absurd h.1 hlt⟩

/-- `MatchClose` on registers is `pairs` on numbers. -/
theorem matchClose_eq_some_iff (s : State) (i m : IAddr) : matchClose s i = some m ↔ pairs s i.toNat m.toNat := by
  refine ⟨fun h => (matchClose_some s i m h).2.2.2, fun h => ?_⟩
  rw [matchClose, h, Option.map_some, BitVec.ofNat_toNat, BitVec.setWidth_eq]

theorem matchClose_eq_none_iff (s : State) (i : IAddr) :
    matchClose s i = none ↔ ∀ n, n ≤ s.progLen.toNat - (i.toNat + 1) →
      countWord s opClose (i.toNat + 1) n ≤ countWord s opOpen (i.toNat + 1) n := by
  rw [matchClose, Option.map_eq_none_iff, scanClose_eq_none_iff]
  simp only [Nat.lt_succ_iff, excessWithin, Nat.add_zero]

end Scan

/-- Settles O17: `MatchClose` is `pairs`, and the scan by counts. -/
theorem matchCloseIsFirstExcess : Obligations.MatchCloseIsFirstExcess :=
  fun s i => ⟨fun m => (matchClose_eq_some_iff s i m).trans (pairs_iff s _ _), matchClose_eq_none_iff s i⟩

/-! ## The depth of the loop stack (R139) -/

/-- What the host does to `inst`, `ip`, `ls` and `fcause`: it resets the last three, or leaves all as they are. -/
theorem hostStep_control_frame {s t : State} {a : HostAction} (h : hostStep a s = .next t) :
    t.inst = s.inst ∧ ((t.ip = 0 ∧ t.ls = [] ∧ t.fcause = .noFault) ∨
      (t.ip = s.ip ∧ t.ls = s.ls ∧ t.fcause = s.fcause)) := by
  cases a with
  | applyReset => cases h; exact ⟨rfl, .inl ⟨rfl, rfl, rfl⟩⟩
  | loadProgram ws =>
    rw [hostStep, loadProgram] at h
    split_ifs at h <;> cases h <;> exact ⟨rfl, .inr ⟨rfl, rfl, rfl⟩⟩
  | loadInput bs =>
    rw [hostStep, loadInput] at h
    split_ifs at h <;> cases h <;> exact ⟨rfl, .inr ⟨rfl, rfl, rfl⟩⟩
  | releaseReset => cases h; exact ⟨rfl, .inr ⟨rfl, rfl, rfl⟩⟩
  | answer x =>
    rw [hostStep, answerPoll] at h
    split_ifs at h <;> cases h <;> exact ⟨rfl, .inr ⟨rfl, rfl, rfl⟩⟩

/-- R138 (iv): address 0 is never pushed. -/
theorem Inv.depth_le_countWord {s : State} (h : Inv s) :
    s.ls.length ≤ countWord s opOpen 1 (s.progLen.toNat - 1) := by
  refine h.stack.length_le_countWord 1 _ fun e he => ?_
  obtain ⟨hlt, -⟩ := programWord_eq_some.mp (h.stack.bracket e he)
  have hpos := h.stack.positive e he
  omega

theorem Inv.depth_lt_imemDepth {s : State} (h : Inv s) : s.ls.length < s.inst.imemDepth := by
  obtain ⟨-, -, hdepth, -⟩ := (params_wf_iff s.inst).mp h.memories.inst
  have hfit := h.memories.progLen
  have hcount := h.depth_le_countWord
  have hwords := countWord_le s opOpen 1 (s.progLen.toNat - 1)
  omega

/-- An instruction overflows the loop stack only where the stack is full (R163). -/
theorem Effect.full_of_loopStackOverflow {s t : State} {i : Instr} (e : Effect s i t)
    (hs : s.fcause ≠ .loopStackOverflow) (ht : t.fcause = .loopStackOverflow) : s.inst.lsDepth ≤ s.ls.length := by
  cases e with
  | overflow _ _ hfull => exact hfull
  | offTape | unmatched => cases ht
  | _ => exact absurd ht hs

theorem Reachable.fcause_ne_loopStackOverflow {s : State} (h : Reachable s) :
    s.inst.lsDepth = s.inst.imemDepth → s.fcause ≠ .loopStackOverflow := by
  induction h with
  | reset c hc => exact fun _ => nofun
  | engine s t hreach hs ih =>
    intro hinst hover
    obtain ⟨-, -, hframe, -⟩ := step_program_frame s t hs
    rw [hframe] at hinst
    rcases step_next_cases s t hs with ⟨-, rfl⟩ | ⟨-, -, rfl⟩ | ⟨-, -, e⟩
    · exact ih hinst hover
    · exact ih hinst hover
    · have hfull := e.full_of_loopStackOverflow (ih hinst) hover
      have hroom := hreach.inv.depth_lt_imemDepth
      omega
  | host s t a _ hs ih =>
    intro hinst
    obtain ⟨hframe, ⟨-, -, hcause⟩ | ⟨-, -, hcause⟩⟩ := hostStep_control_frame hs <;> rw [hcause]
    · exact nofun
    · exact ih (hframe ▸ hinst)

/-- Settles O37: the entries are distinct `[` words from address 1 on, so a stack of IMEM_DEPTH entries never fills. -/
theorem loopStackNeverOverflows : Obligations.LoopStackNeverOverflows := by
  intro s h
  obtain ⟨-, -, -, -, hdepth, -⟩ := reachableStateFacts s h
  exact ⟨hdepth, fun _ => ⟨countWord_le s opOpen 1 _, h.inv.depth_le_countWord⟩, h.inv.depth_lt_imemDepth,
    h.fcause_ne_loopStackOverflow⟩

/-! ## Partners -/

section Partners

variable {s t : State} {o a c k m : Nat}

theorem pairs_lt (h : pairs s o c) : o < c := ((pairs_iff s o c).mp h).1

theorem pairs_holds_close (h : pairs s o c) : holdsWord s c opClose :=
  programWord_eq_some.mpr ⟨((pairs_iff s o c).mp h).2.1, (scanClose_some _ _ _ _ _ h).2.2⟩

theorem pairs_unique (h : pairs s o c) (h' : pairs s o m) : c = m :=
  Option.some.inj (h.symm.trans h')

theorem not_holds_close_of_open (ho : holdsWord s a opOpen) : ¬ holdsWord s a opClose :=
  fun hc => opOpen_ne_opClose (Option.some.inj (ho.symm.trans hc))

/-- The words of a stretch, cut at a word `v` inside it. -/
theorem countWord_cut (w : Byte) {v : Byte} (hv : s.imem.read a = v) (hoa : o < a) (hac : a < c) :
    countWord s w (o + 1) (c - o) =
      countWord s w (o + 1) (a - (o + 1)) + (if v = w then 1 else 0) + countWord s w (a + 1) (c - a) := by
  have hlen : c - o = a - (o + 1) + (c - a + 1) := by omega
  have ha : o + 1 + (a - (o + 1)) = a := by omega
  rw [hlen, countWord_add, ha, countWord_succ, hv, ← Nat.add_assoc]

/-- Loops nest: a `[` inside a loop has its partner inside it. From the inner `[` on there is one `[` fewer to set
against the `]`s, so their excess comes first there. -/
theorem pairs_nested (houter : pairs s o c) (ha : holdsWord s a opOpen) (hoa : o < a) (hac : a < c)
    (hinner : pairs s a m) : m < c := by
  obtain ⟨-, -, hexcess, hle⟩ := (pairs_iff s o c).mp houter
  obtain ⟨-, -, hinnerExcess, hinnerLe⟩ := (pairs_iff s a m).mp hinner
  obtain ⟨-, hword⟩ := programWord_eq_some.mp ha
  have hbefore := hle (a - (o + 1)) (by omega)
  have hafter : countWord s opOpen (a + 1) (c - a) + 2 ≤ countWord s opClose (a + 1) (c - a) := by
    rw [countWord_cut opClose hword hoa hac, countWord_cut opOpen hword hoa hac, if_pos rfl,
      if_neg opOpen_ne_opClose] at hexcess
    omega
  rcases Nat.lt_trichotomy m c with hlt | rfl | hgt
  · exact hlt
  · omega
  · have := hinnerLe (c - a) (by omega)
    omega

/-! ## The brackets that enclose an address -/

/-- `o` is a `[` that encloses the address `a` (R140). -/
def enclosesAt (s : State) (a o : Nat) : Prop :=
  holdsWord s o opOpen ∧ o < a ∧ ∃ c, pairs s o c ∧ a ≤ c

theorem encloses_iff : encloses s o ↔ enclosesAt s s.ip.toNat o := Iff.rfl

/-- A word that is no bracket has no part in what encloses the next. -/
theorem enclosesAt_succ_of_other (ho : ¬ holdsWord s a opOpen) (hc : ¬ holdsWord s a opClose) :
    enclosesAt s (a + 1) o ↔ enclosesAt s a o := by
  constructor
  · rintro ⟨hword, hlt, c, hpair, hle⟩
    have hne : o ≠ a := by rintro rfl; exact ho hword
    exact ⟨hword, by omega, c, hpair, by omega⟩
  · rintro ⟨hword, hlt, c, hpair, hle⟩
    have hne : a ≠ c := by rintro rfl; exact hc (pairs_holds_close hpair)
    exact ⟨hword, by omega, c, hpair, by omega⟩

/-- What encloses the body of a loop is its `[` and what encloses that. -/
theorem enclosesAt_body (ha : holdsWord s a opOpen) (hpair : pairs s a m) :
    enclosesAt s (a + 1) o ↔ o = a ∨ enclosesAt s a o := by
  constructor
  · rintro ⟨hword, hlt, c, hpair', hle⟩
    rcases Nat.lt_succ_iff_lt_or_eq.mp hlt with hlt | rfl
    · exact .inr ⟨hword, hlt, c, hpair', by omega⟩
    · exact .inl rfl
  · rintro (rfl | ⟨hword, hlt, c, hpair', hle⟩)
    · exact ⟨ha, by omega, m, hpair, pairs_lt hpair⟩
    · have hne : a ≠ c := by rintro rfl; exact not_holds_close_of_open ha (pairs_holds_close hpair')
      exact ⟨hword, by omega, c, hpair', by omega⟩

/-- What encloses a `[` encloses the whole loop and the word after it. -/
theorem enclosesAt_after_loop (ha : holdsWord s a opOpen) (hpair : pairs s a m) :
    enclosesAt s (m + 1) o ↔ enclosesAt s a o := by
  have ham := pairs_lt hpair
  constructor
  · rintro ⟨hword, hlt, c, hpair', hle⟩
    have hnotInside : ¬ (a < o ∧ o < m) := fun ⟨hao, hom⟩ => by
      have := pairs_nested hpair hword hao hom hpair'
      omega
    have hna : o ≠ a := by
      rintro rfl
      have := pairs_unique hpair hpair'
      omega
    have hnm : o ≠ m := by rintro rfl; exact not_holds_close_of_open hword (pairs_holds_close hpair)
    exact ⟨hword, by omega, c, hpair', by omega⟩
  · rintro ⟨hword, hlt, c, hpair', hle⟩
    have hne : a ≠ c := by rintro rfl; exact not_holds_close_of_open ha (pairs_holds_close hpair')
    have := pairs_nested hpair' ha hlt (by omega) hpair
    exact ⟨hword, by omega, c, hpair', this⟩

/-- What encloses the innermost enclosing `[` is what encloses `a`, without that `[`. -/
theorem enclosesAt_innermost (hk : enclosesAt s a k) (hmax : ∀ o, enclosesAt s a o → o ≤ k) :
    enclosesAt s k o ↔ enclosesAt s a o ∧ o ≠ k := by
  obtain ⟨hopen, hka, m, hpair, ham⟩ := hk
  constructor
  · rintro ⟨hword, hlt, c, hpair', hle⟩
    have hne : k ≠ c := by rintro rfl; exact not_holds_close_of_open hopen (pairs_holds_close hpair')
    have := pairs_nested hpair' hopen hlt (by omega) hpair
    exact ⟨⟨hword, by omega, c, hpair', by omega⟩, by omega⟩
  · rintro ⟨henc, hne⟩
    have hle := hmax o henc
    obtain ⟨hword, -, c, hpair', hac⟩ := henc
    exact ⟨hword, by omega, c, hpair', by omega⟩

/-- Nothing encloses the end of the program. -/
theorem not_enclosesAt_progLen : ¬ enclosesAt s s.progLen.toNat o := by
  rintro ⟨-, -, c, hpair, hle⟩
  have := ((pairs_iff s o c).mp hpair).2.1
  omega

/-- The innermost `[` that encloses a `]` of a balanced program is its partner. -/
theorem innermost_pairs (hb : BalancedProgram s) (hc : holdsWord s c opClose) (hk : enclosesAt s c k)
    (hmax : ∀ o, enclosesAt s c o → o ≤ k) : pairs s k c := by
  obtain ⟨o, ⟨ho, hpair⟩, -⟩ := hb.closes c hc
  obtain ⟨hopen, hkc, m, hpair', hcm⟩ := hk
  rcases Nat.lt_or_eq_of_le (hmax o ⟨ho, pairs_lt hpair, c, hpair, le_rfl⟩) with hlt | rfl
  · have := pairs_nested hpair hopen hlt hkc hpair'
    omega
  · exact hpair

/-! ## The same program -/

theorem holdsWord_congr (himem : t.imem = s.imem) (hlen : t.progLen = s.progLen) : holdsWord t = holdsWord s := by
  funext a w
  simp only [holdsWord, programWord, himem, hlen]

theorem pairs_congr (himem : t.imem = s.imem) (hlen : t.progLen = s.progLen) : pairs t = pairs s := by
  funext o c
  simp only [pairs, himem, hlen]

theorem enclosesAt_congr (himem : t.imem = s.imem) (hlen : t.progLen = s.progLen) : enclosesAt t = enclosesAt s := by
  funext a o
  simp only [enclosesAt, holdsWord_congr himem hlen, pairs_congr himem hlen]

theorem BalancedProgram.congr (hb : BalancedProgram s) (himem : t.imem = s.imem) (hlen : t.progLen = s.progLen) :
    BalancedProgram t := by
  obtain ⟨opens, closes⟩ := hb
  rw [← holdsWord_congr himem hlen, ← pairs_congr himem hlen] at opens closes
  exact ⟨opens, closes⟩

end Partners

/-! ## The loop stack of a balanced program -/

/-- The word at `ip` is a given instruction's exactly when that instruction runs next. -/
theorem holdsWord_ip_iff {s : State} {i : Instr} (hi : i.wf = true) (hip : s.ip.toNat < s.progLen.toNat) :
    holdsWord s s.ip.toNat (encode i) ↔ nextInstr s = i := by
  rw [holdsWord, programWord_eq_some, nextInstr, decode_eq_iff hi]
  exact and_iff_right hip

theorem holds_open_ip_iff {s : State} (hip : s.ip.toNat < s.progLen.toNat) :
    holdsWord s s.ip.toNat opOpen ↔ nextInstr s = .openLoop :=
  holdsWord_ip_iff (i := .openLoop) rfl hip

theorem holds_close_ip_iff {s : State} (hip : s.ip.toNat < s.progLen.toNat) :
    holdsWord s s.ip.toNat opClose ↔ nextInstr s = .closeLoop :=
  holdsWord_ip_iff (i := .closeLoop) rfl hip

section StackIsEnclosing

variable {s t : State} {i : Instr}

/-- What an instruction does to `ip` and the loop stack (R130, R136, R94). -/
theorem Effect.loop_cases (e : Effect s i t) :
    (t.ip = s.ip ∧ t.ls = s.ls) ∨
      (i ≠ .openLoop ∧ i ≠ .closeLoop ∧ t.ip = s.ip + 1#17 ∧ t.ls = s.ls) ∨
      (i = .openLoop ∧ t.ip = s.ip + 1#17 ∧ t.ls = s.ip :: s.ls) ∨
      (i = .openLoop ∧ t.ls = s.ls ∧ ∃ m, matchClose s s.ip = some m ∧ t.ip = m + 1#17) ∨
      (i = .closeLoop ∧ s.ls = []) ∨
      (i = .closeLoop ∧ s.ls = t.ip :: t.ls) := by
  cases e with
  | offTape | held | unmatched | overflow => exact .inl ⟨rfl, rfl⟩
  | enter => exact .inr (.inr (.inl ⟨rfl, rfl, rfl⟩))
  | skip m _ _ hm => exact .inr (.inr (.inr (.inl ⟨rfl, rfl, m, hm, rfl⟩)))
  | closeEmpty hl => exact .inr (.inr (.inr (.inr (.inl ⟨rfl, hl⟩))))
  | closePop k rest hl => exact .inr (.inr (.inr (.inr (.inr ⟨rfl, hl⟩))))
  | _ => exact .inr (.inl ⟨nofun, nofun, rfl, rfl⟩)

/-- The top of the loop stack is the innermost enclosing `[`. -/
theorem StackEncloses.top_innermost (h : StackEncloses s) {k : IAddr} {rest : List IAddr} (hl : s.ls = k :: rest) :
    enclosesAt s s.ip.toNat k.toNat ∧ ∀ o, enclosesAt s s.ip.toNat o → o ≤ k.toNat := by
  obtain ⟨falling, hexact⟩ := h
  rw [hl] at falling hexact
  refine ⟨(hexact k.toNat).mp ⟨k, List.mem_cons_self, rfl⟩, fun o ho => ?_⟩
  obtain ⟨e, he, rfl⟩ := (hexact o).mpr ho
  rcases List.mem_cons.mp he with rfl | he
  · exact le_rfl
  · exact (List.rel_of_pairwise_cons falling he).le

/-- Below the top are the enclosing brackets but for the innermost. -/
theorem StackEncloses.below_top (h : StackEncloses s) {k : IAddr} {rest : List IAddr} (hl : s.ls = k :: rest)
    (o : Nat) : (∃ e ∈ rest, e.toNat = o) ↔ enclosesAt s s.ip.toNat o ∧ o ≠ k.toNat := by
  obtain ⟨falling, hexact⟩ := h
  rw [hl] at falling hexact
  rw [← encloses_iff, ← hexact]
  constructor
  · rintro ⟨e, he, rfl⟩
    exact ⟨⟨e, .tail _ he, rfl⟩, (List.rel_of_pairwise_cons falling he).ne⟩
  · rintro ⟨⟨e, he, rfl⟩, hne⟩
    rcases List.mem_cons.mp he with rfl | he
    · exact absurd rfl hne
    · exact ⟨e, he, rfl⟩

/-- R140: at a `]` the top of the loop stack is its partner. -/
theorem StackEncloses.top_pairs (h : StackEncloses s) (hb : BalancedProgram s)
    (hc : holdsWord s s.ip.toNat opClose) :
    ∃ k rest, s.ls = k :: rest ∧ holdsWord s k.toNat opOpen ∧ pairs s k.toNat s.ip.toNat := by
  obtain ⟨o, ⟨ho, hpair⟩, -⟩ := hb.closes _ hc
  obtain ⟨e, he, -⟩ := (h.exact o).mpr ⟨ho, pairs_lt hpair, _, hpair, le_rfl⟩
  obtain ⟨k, rest, hl⟩ := List.exists_cons_of_ne_nil (List.ne_nil_of_mem he)
  obtain ⟨hk, hmax⟩ := h.top_innermost hl
  exact ⟨k, rest, hl, hk.1, innermost_pairs hb hc hk hmax⟩

/-- The induction step of R140, one case for each way control moves. -/
theorem StackEncloses.exact_of_effect (h : StackEncloses s) (hb : BalancedProgram s)
    (hip : s.ip.toNat < s.progLen.toNat) (e : Effect s (nextInstr s) t) (o : Nat) :
    (∃ x ∈ t.ls, x.toNat = o) ↔ enclosesAt s t.ip.toNat o := by
  have hexact := h.exact o
  rw [encloses_iff] at hexact
  have hsucc := ip_succ_toNat s hip
  have hopen := holds_open_ip_iff hip
  have hclose := holds_close_ip_iff hip
  rcases e.loop_cases with
    ⟨hi, hl⟩ | ⟨hno, hnc, hi, hl⟩ | ⟨ho, hi, hl⟩ | ⟨ho, hl, m, hm, hi⟩ | ⟨hc, hl⟩ | ⟨hc, hl⟩
  · rw [hl, hi, hexact]
  · rw [hl, hi, hsucc, hexact, enclosesAt_succ_of_other (hopen.not.mpr hno) (hclose.not.mpr hnc)]
  · obtain ⟨c, hpair⟩ := hb.opens _ (hopen.mpr ho)
    rw [hl, hi, hsucc, enclosesAt_body (hopen.mpr ho) hpair, ← hexact, List.exists_mem_cons_iff, eq_comm]
  · rw [hl, hi, matchClose_succ_toNat hm, hexact,
      enclosesAt_after_loop (hopen.mpr ho) ((matchClose_eq_some_iff s _ m).mp hm)]
  · obtain ⟨k, rest, hl', -⟩ := h.top_pairs hb (hclose.mpr hc)
    rw [hl] at hl'; cases hl'
  · obtain ⟨hk, hmax⟩ := h.top_innermost hl
    rw [h.below_top hl, enclosesAt_innermost hk hmax]

/-- Settles O38: the program is the same and the stack falls by the invariant; a step that runs an instruction keeps the
entries right by `StackEncloses.exact_of_effect`. -/
theorem balancedLoopsKeepEnclosingStack : Obligations.BalancedLoopsKeepEnclosingStack := by
  intro s t hinv hb h hs
  obtain ⟨himem, hlen, -⟩ := step_program_frame s t hs
  refine ⟨⟨(stepKeepsInvariant s t hinv hs).stack.falling, fun o => ?_⟩, hb.congr himem hlen⟩
  rw [encloses_iff, enclosesAt_congr himem hlen]
  rcases step_next_cases s t hs with ⟨-, rfl⟩ | ⟨-, -, rfl⟩ | ⟨-, hip, e⟩
  · exact h.exact o
  · exact h.exact o
  · exact h.exact_of_effect hb hip e o

/-- `UnmatchedOpenBracket` arises at a `[` without a match alone (R135). -/
theorem Effect.unmatched_of_fcause (e : Effect s i t) (hs : s.fcause ≠ .unmatchedOpenBracket)
    (ht : t.fcause = .unmatchedOpenBracket) : i = .openLoop ∧ matchClose s s.ip = none := by
  cases e with
  | unmatched _ _ hm => exact ⟨rfl, hm⟩
  | offTape | overflow => cases ht
  | _ => exact absurd ht hs

/-- In a balanced program `MatchClose` finds the partner of the `[` at `ip`. -/
theorem BalancedProgram.matchClose_ip (hb : BalancedProgram s) (hip : s.ip.toNat < s.progLen.toNat)
    (ho : nextInstr s = .openLoop) : ∃ m, matchClose s s.ip = some m := by
  obtain ⟨c, hpair⟩ := hb.opens _ ((holds_open_ip_iff hip).mpr ho)
  exact ⟨BitVec.ofNat 17 c, by rw [matchClose, hpair, Option.map_some]⟩

/-- Settles O39: the top of the stack at a `]`, the partner of every `[`, and the end of the program, which nothing
encloses. -/
theorem balancedBracketsPairUp : Obligations.BalancedBracketsPairUp := by
  intro s hinv hb h
  refine ⟨fun hip hc => h.top_pairs hb ((holds_close_ip_iff hip).mpr hc),
    fun t hrun hs ht => ?_, fun hhalt => ?_⟩
  · have hcause : s.fcause ≠ .unmatchedOpenBracket := by
      rw [(hinv.record.running_record hrun).1]; exact nofun
    rcases step_next_cases s t hs with ⟨-, rfl⟩ | ⟨-, -, rfl⟩ | ⟨-, hip, e⟩
    · exact hcause ht
    · exact hcause ht
    · obtain ⟨ho, hnone⟩ := e.unmatched_of_fcause hcause ht
      obtain ⟨m, hm⟩ := hb.matchClose_ip hip ho
      rw [hnone] at hm; cases hm
  · refine List.eq_nil_iff_forall_not_mem.mpr fun e he => ?_
    have henc := (h.exact e.toNat).mp ⟨e, he, rfl⟩
    rw [encloses_iff, hinv.record.haltEnd hhalt] at henc
    exact not_enclosesAt_progLen henc

end StackIsEnclosing

/-! ## Reachable states of a balanced program -/

/-- Nothing encloses address 0, where every run begins. -/
theorem stackEncloses_of_start {s : State} (hip : s.ip = 0) (hl : s.ls = []) : StackEncloses s := by
  constructor
  · rw [hl]; exact .nil
  · simp [hl, encloses, hip]

theorem StackEncloses.congr {s t : State} (h : StackEncloses s) (himem : t.imem = s.imem)
    (hlen : t.progLen = s.progLen) (hip : t.ip = s.ip) (hl : t.ls = s.ls) : StackEncloses t := by
  refine ⟨hl ▸ h.falling, fun o => ?_⟩
  rw [hl, encloses_iff, hip, enclosesAt_congr himem hlen]
  exact h.exact o

/-- Settles O40, by induction on the run. A load can make the program another one, but under reset alone, where `ip` is
0 and the loop stack is empty. -/
theorem reachableBalancedStack : Obligations.ReachableBalancedStack := by
  intro s hreach
  induction hreach with
  | reset c hc => exact fun _ => stackEncloses_of_start rfl rfl
  | engine s t hreach hs ih =>
    intro hb
    obtain ⟨himem, hlen, -⟩ := step_program_frame s t hs
    have hbs : BalancedProgram s := hb.congr himem.symm hlen.symm
    exact (balancedLoopsKeepEnclosingStack s t hreach.inv hbs (ih hbs) hs).1
  | host s t a hreach hs ih =>
    intro hb
    obtain ⟨-, ⟨hip, hl, -⟩ | ⟨hip, hl, -⟩⟩ := hostStep_control_frame hs
    · exact stackEncloses_of_start hip hl
    cases hr : s.resetHeld with
    | true =>
      obtain ⟨-, hip0, -⟩ := hreach.inv.record.underReset hr
      exact stackEncloses_of_start (hip.trans hip0) (hl.trans (hreach.inv.ls_eq_nil_of_held hr))
    | false =>
      obtain ⟨himem, hlen, -⟩ := programIsImmutable.2 s t a hr hs
      exact (ih (hb.congr himem.symm hlen.symm)).congr himem hlen hip hl

/-! ## Balanced loops as while-loops -/

section WhileLoop

variable {s : State}

/-- A step at a `[` with a non-zero cell and room on the loop stack. -/
theorem step_enter (hidle : idle s = false) (hip : s.ip.toNat < s.progLen.toNat) (ho : nextInstr s = .openLoop)
    (hp : s.p.toNat < s.inst.tapeLen) (hz : s.tape.read s.p.toNat ≠ 0#8) (hd : s.ls.length < s.inst.lsDepth) :
    step s = .next { s with ls := s.ip :: s.ls, ip := s.ip + 1#17 } := by
  rw [step_inside s hidle hip, ho]
  exact (Effect.enter hp hz hd).exec_eq

/-- A step at a `[` with a zero cell and a partner. -/
theorem step_skip {c : IAddr} (hidle : idle s = false) (hip : s.ip.toNat < s.progLen.toNat)
    (ho : nextInstr s = .openLoop) (hp : s.p.toNat < s.inst.tapeLen) (hz : s.tape.read s.p.toNat = 0#8)
    (hpair : pairs s s.ip.toNat c.toNat) : step s = .next { s with ip := c + 1#17 } := by
  rw [step_inside s hidle hip, ho]
  exact (Effect.skip c hp hz ((matchClose_eq_some_iff s s.ip c).mpr hpair)).exec_eq

/-- A step at a `]` with a loop on the stack. -/
theorem step_pop {k : IAddr} {rest : List IAddr} (hidle : idle s = false) (hip : s.ip.toNat < s.progLen.toNat)
    (hc : nextInstr s = .closeLoop) (hl : s.ls = k :: rest) : step s = .next { s with ls := rest, ip := k } := by
  rw [step_inside s hidle hip, hc]
  exact (Effect.closePop k rest hl).exec_eq

end WhileLoop

/-- Settles O47: at a `]` the partner is on top, so the step after the pop is one at that `[`, with room for it. -/
theorem balancedBodyRunsWhileNonZero : Obligations.BalancedBodyRunsWhileNonZero := by
  intro s hinv hb h hrun hreset hip hp
  have hidle : idle s = false := (idle_eq_false_iff s).mpr ⟨hreset, hrun⟩
  refine ⟨fun ho hz hd => step_enter hidle hip ho hp hz hd, fun ho hz => ?skip, fun hc => ?close⟩
  case skip =>
    obtain ⟨c, hm⟩ := hb.matchClose_ip hip ho
    have hpair := (matchClose_eq_some_iff s s.ip c).mp hm
    exact ⟨c, hpair, step_skip hidle hip ho hp hz hpair⟩
  case close =>
    obtain ⟨k, rest, hl, hopen, hpair⟩ := h.top_pairs hb ((holds_close_ip_iff hip).mpr hc)
    have hk : k.toNat < s.progLen.toNat := (programWord_eq_some.mp hopen).1
    have ho : nextInstr { s with ls := rest, ip := k } = .openLoop :=
      (holds_open_ip_iff (s := { s with ls := rest, ip := k }) hk).mp hopen
    have hroom : rest.length < s.inst.lsDepth := by
      have := hinv.stack.capacity
      rwa [hl] at this
    refine ⟨k, rest, _, hl, hpair, step_pop hidle hip hc hl, rfl, fun hz => ?again, fun hz => ?leave⟩
    case again => rw [step_enter (s := { s with ls := rest, ip := k }) hidle hk ho hp hz hroom, ← hl]
    case leave => exact step_skip (s := { s with ls := rest, ip := k }) hidle hk ho hp hz hpair

end Sys2Proof.Machine
end

section
/-! PROOFS. Every other word (45_nop.md R150). -/

namespace Sys2Proof.Machine

/-- The 256 numbers of a byte name each word once, so as many of them name a word of a list as the list has words. -/
theorem length_filter_ofNat_mem {ws : List Byte} (hnodup : ws.Nodup) :
    ((List.range 256).filter fun n => BitVec.ofNat 8 n ∈ ws).length = ws.length := by
  have hperm : ((List.range 256).filter fun n => BitVec.ofNat 8 n ∈ ws).Perm (ws.map BitVec.toNat) := by
    refine (List.perm_ext_iff_of_nodup (List.nodup_range.filter _)
      (hnodup.map fun _ _ => BitVec.eq_of_toNat_eq)).mpr fun n => ?_
    simp only [List.mem_filter, List.mem_range, decide_eq_true_eq, List.mem_map]
    constructor
    · rintro ⟨hn, hmem⟩
      exact ⟨BitVec.ofNat 8 n, hmem, (BitVec.toNat_ofNat n 8).trans (Nat.mod_eq_of_lt hn)⟩
    · rintro ⟨w, hmem, rfl⟩
      exact ⟨w.isLt, by rwa [BitVec.ofNat_toNat, BitVec.setWidth_eq]⟩
  rw [hperm.length_eq, List.length_map]

/-- Of the 256 words, the eight that R150 lists are not NOP and the others are. -/
theorem count_nop_words :
    ((List.range 256).filter fun n => decide (decode (BitVec.ofNat 8 n) = .nop (BitVec.ofNat 8 n))).length = 248 := by
  have hcoded : ((List.range 256).filter fun n => BitVec.ofNat 8 n ∈ notNopWords).length = 8 :=
    length_filter_ofNat_mem (by decide)
  have hall := List.length_eq_length_filter_add (l := List.range 256) fun n => decide (BitVec.ofNat 8 n ∈ notNopWords)
  simp only [List.length_range, hcoded, ← decide_not] at hall
  simp only [decode_eq_nop_iff]
  omega

/-- Settles O19: the words are those the decoder's exact comparison leaves over, and `NOP` has one effect. -/
theorem nopOnlyAdvances : Obligations.NopOnlyAdvances :=
  ⟨fun _ => decode_eq_nop_iff, count_nop_words, fun w _ => (Effect.nop w).exec_eq⟩

end Sys2Proof.Machine
end

section
/-! PROOFS. Faults (60_exceptions.md): what taking a fault writes (R166), and exactly when an instruction raises each
(R160 to R163, R165). -/

namespace Sys2Proof.Machine

/-- Two causes have one code only if they are the same cause (R30). -/
theorem causeCode_inj {c d : FaultCause} : causeCode c = causeCode d ↔ c = d := by
  cases c <;> cases d <;> decide

/-! ## The fault entry -/

/-- Neither an idle step nor the halt ends Faulted from another status, so the fault entry of an instruction did. -/
theorem step_enters_fault {s t : State} (h : step s = .next t) (hs : s.status ≠ .faulted) (ht : t.status = .faulted) :
    ∃ c, c ≠ .noFault ∧ t = enterFault c s := by
  rcases step_next_cases s t h with ⟨-, rfl⟩ | ⟨-, -, rfl⟩ | ⟨-, -, e⟩
  · exact absurd ht hs
  · cases ht
  · rcases e.record_cases with ⟨hsame, -, -⟩ | ⟨c, hc, -, -, htaken⟩
    · exact absurd (hsame ▸ ht) hs
    · exact ⟨c, hc, htaken⟩

/-- Settles O22: such a step is the fault entry of its instruction, and RESULT shows what the entry wrote. -/
theorem faultEntryIsPrecise : Obligations.FaultEntryIsPrecise := by
  refine ⟨fun _ _ => rfl, fun s t hs h ht => ?_⟩
  obtain ⟨c, hc, rfl⟩ := step_enters_fault h hs ht
  have hcode : causeCode c ≠ 0#2 := causeCode_inj.not.mpr hc
  exact ⟨c, hc, rfl, rfl, Nat.pos_of_ne_zero (BitVec.toNat_ne.mp hcode), rfl, rfl⟩

/-! ## When each fault is raised -/

/-- The condition of each fault, as R161 to R163 give it; no instruction raises the code 0 (R160). -/
def FaultCondition (i : Instr) (s : State) (c : FaultCause) : Prop :=
  match c with
  | .noFault => False
  | .unmatchedOpenBracket =>
    i = .openLoop ∧ s.p.toNat < s.inst.tapeLen ∧ s.tape.read s.p.toNat = 0#8 ∧ matchClose s s.ip = none
  | .pointerOutOfTape => accessesTape i = true ∧ s.inst.tapeLen ≤ s.p.toNat
  | .loopStackOverflow =>
    i = .openLoop ∧ s.p.toNat < s.inst.tapeLen ∧ s.tape.read s.p.toNat ≠ 0#8 ∧ s.inst.lsDepth ≤ s.ls.length

section FaultConditions

variable {s t : State} {i : Instr} {c : FaultCause}

theorem Effect.faultCondition (e : Effect s i t) (hs : s.status ≠ .faulted) (ht : t.status = .faulted) :
    FaultCondition i s t.fcause := by
  cases e with
  | offTape _ ha hp => exact ⟨ha, hp⟩
  | unmatched hp hz hm => exact ⟨rfl, hp, hz, hm⟩
  | overflow hp hz hd => exact ⟨rfl, hp, hz, hd⟩
  | _ => exact absurd ht hs

theorem FaultCondition.exec_eq_raise (h : FaultCondition i s c) : exec i s = raise c s := by
  cases c with
  | noFault => exact h.elim
  | unmatchedOpenBracket =>
    obtain ⟨rfl, hp, hz, hm⟩ := h
    exact (Effect.unmatched hp hz hm).exec_eq
  | pointerOutOfTape =>
    obtain ⟨ha, hp⟩ := h
    exact (Effect.offTape i ha hp).exec_eq
  | loopStackOverflow =>
    obtain ⟨rfl, hp, hz, hd⟩ := h
    exact (Effect.overflow hp hz hd).exec_eq

theorem exec_faults_with_code_iff (hs : s.status ≠ .faulted) (h : exec i s = .next t) (c : FaultCause) :
    t.status = .faulted ∧ causeCode t.fcause = causeCode c ↔ FaultCondition i s c := by
  rw [causeCode_inj]
  constructor
  · rintro ⟨ht, rfl⟩
    exact (exec_effect i s t h).faultCondition hs ht
  · intro hcond
    have hraise : raise c s = .next t := hcond.exec_eq_raise ▸ h
    cases hraise
    exact ⟨rfl, rfl⟩

end FaultConditions

/-- Settles O23: one equivalence, read at each of the four codes. -/
theorem faultsExactly : Obligations.FaultsExactly := by
  intro i s t hrun h
  have hcode := exec_faults_with_code_iff (by simp [hrun]) h
  exact ⟨hcode .unmatchedOpenBracket, hcode .pointerOutOfTape, hcode .loopStackOverflow,
    fun ht hzero => (hcode .noFault).mp ⟨ht, hzero⟩⟩

end Sys2Proof.Machine
end

section
/-! PROOFS. Reset, the boot order and the returned text (70_reset_and_hazards.md R191, R193, R197). -/

namespace Sys2Proof.Machine

/-! ## Booting (R193) -/

/-- The program of a booted state is the one LOAD wrote. -/
theorem booted_programWord (ws input : List Byte) (s : State) (hfit : ws.length ≤ s.inst.imemDepth)
    (hwf : s.inst.wf = true) (a : Nat) (ha : a < ws.length) :
    programWord (booted ws input s) a = some ws[a] := by
  have hlen : (booted ws input s).progLen.toNat = ws.length := loadedWords_progLen_toNat ws s hfit hwf
  have hword : (booted ws input s).imem.read a = ws[a] := (loadedWords_read ws s a).trans (dif_pos ha)
  exact programWord_eq_some.mpr ⟨hlen ▸ ha, hword⟩

/-- Settles O43: the check of the length is the one branch of a boot, and a booted state is reset but for what LOAD
wrote. -/
theorem bootGivesResetState : Obligations.BootGivesResetState := by
  intro isSpace text input s hwf
  rw [boot_eq]
  refine ⟨fun hlong => if_neg (Nat.not_le.mpr hlong), fun hfit => ?_⟩
  exact ⟨booted (strip isSpace text) input s, if_pos hfit, rfl, loadedWords_progLen_toNat _ s hfit hwf,
    booted_programWord _ input s hfit hwf⟩

/-! ## Trim (R197) -/

section Trim

variable (isSpace : Byte → Bool) (s : List Byte)

/-- The two ends that `trim` takes away, and what it leaves between them. -/
theorem takeWhile_trim_rtakeWhile :
    s.takeWhile isSpace ++ trim isSpace s ++ (s.dropWhile isSpace).rtakeWhile isSpace = s := by
  have hsuffix : trim isSpace s ++ (s.dropWhile isSpace).rtakeWhile isSpace = s.dropWhile isSpace :=
    List.rdropWhile_append_rtakeWhile
  rw [List.append_assoc, hsuffix, List.takeWhile_append_dropWhile]

theorem isSpace_head_dropWhile {b : Byte} (h : (s.dropWhile isSpace).head? = some b) : isSpace b = false := by
  have hnot := List.head?_dropWhile_not isSpace s
  rw [h] at hnot
  exact hnot

/-- The first byte left is the first one after the whitespace at the front: the second cut is at the other end. -/
theorem isSpace_head_trim {b : Byte} (h : (trim isSpace s).head? = some b) : isSpace b = false := by
  obtain ⟨rest, hrest⟩ : trim isSpace s <+: s.dropWhile isSpace := List.rdropWhile_prefix isSpace _
  exact isSpace_head_dropWhile isSpace s (by rw [← hrest, List.head?_append, h]; rfl)

theorem isSpace_getLast_trim {b : Byte} (h : (trim isSpace s).getLast? = some b) : isSpace b = false := by
  rw [trim, List.getLast?_reverse] at h
  exact isSpace_head_dropWhile isSpace _ h

theorem trim_of_all_space (h : ∀ b ∈ s, isSpace b = true) : trim isSpace s = [] := by
  rw [trim, List.dropWhile_eq_nil_iff.mpr h]
  rfl

end Trim

/-- Settles O44: the two ends and what `trim` leaves between them, and the host's test for the end of the run. -/
theorem trimTakesBothEnds : Obligations.TrimTakesBothEnds := by
  intro isSpace s
  refine ⟨⟨s.takeWhile isSpace, (s.dropWhile isSpace).rtakeWhile isSpace, ?ends, ?pre, ?post⟩,
    fun _ => isSpace_head_trim isSpace s, fun _ => isSpace_getLast_trim isSpace s, trim_of_all_space isSpace s,
    fun m => ⟨fun hended => ?after, fun hgoing => ?before⟩⟩
  case ends => exact (takeWhile_trim_rtakeWhile isSpace s).symm
  case pre => exact fun _ => List.mem_takeWhile_imp
  case post => exact fun _ => List.mem_rtakeWhile_imp
  case after => exact returnedText_eq_some.mpr ⟨hended, rfl⟩
  case before => rw [returnedText, hgoing]; rfl

/-! ## Reset (R190, R191) -/

/-- Settles O41: reset writes every piece of state but the program and the constants, and then holds the engine, so that
no step is taken and LOAD works. -/
theorem resetClearsAllButProgram : Obligations.ResetClearsAllButProgram := by
  intro s
  refine ⟨applyReset s, rfl, rfl, rfl, rfl, rfl, rfl, Memory.read_nil, rfl, rfl, rfl, rfl, rfl, rfl, ?step,
    fun bs => ?load, ?release⟩
  case step => exact step_idle _ rfl
  case load => exact ⟨setInbuf bs (applyReset s), by rw [hostStep, loadInput_held bs _ rfl], rfl⟩
  case release => exact ⟨releaseReset (applyReset s), rfl, rfl, rfl⟩

end Sys2Proof.Machine
end
